-- ==== Sys2Proof/Word.lean ====
section
/-!
DEFINITION. The words that cross the block's ports (30_encoding R55, R57, R61).
-/

namespace Sys2Proof

/-- A command word, `cmd_word` of R55: 64 bits, laid out by R57. -/
abbrev CmdWord := BitVec 64

/-- A response word, `rsp_word` of R55, and a word of the configuration space (R41): 32 bits. -/
abbrev Word := BitVec 32

/-- A word address of the configuration space (R41): 16 bits. -/
abbrev CfgAddr := BitVec 16

/-- An input sample as field `A` carries it (R66) and as the delay line stores it (R28): 16 bits,
two's complement. -/
abbrev SampleWord := BitVec 16

/-- A sample index (R68): 32 bits, unsigned. -/
abbrev Index := BitVec 32

end Sys2Proof
end

