-- ==== Sys2Proof/Config.lean ====
section
/-!
DEFINITION. What an implementation fixes: the parameter record of 00_scope R7 with the constants R9
derives from it, the reference values, and the values the spec leaves free.
-/

namespace Sys2Proof

/-- The implementation parameters of R7, under R7's names. Rules are written against the names; every
operation of the model takes the record as an argument. -/
structure Params where
  /-- `NB_MAX`, number of band slots. -/
  nbMax : Nat
  /-- `SAMPLE_W`, width of an input sample. -/
  sampleW : Nat
  /-- `COEF_W`, width of a stored tap. -/
  coefW : Nat
  /-- `COEF_FRAC`, fraction bits of a stored tap. -/
  coefFrac : Nat
  /-- `NT_MAX`, tap slots per band. -/
  ntMax : Nat
  /-- `NT_LOG`, ceil(log2(NT_MAX)). -/
  ntLog : Nat
  /-- `ACC_W`, accumulator width. -/
  accW : Nat
  /-- `Y_W`, width of a filtered sample. -/
  yW : Nat
  /-- `TV_W`, width of a tracker value. -/
  tvW : Nat
  /-- `IDX_W`, width of a sample index. -/
  idxW : Nat
  /-- `DQ_CAP`, entry slots of one band's deque. -/
  dqCap : Nat
  /-- `SENS_W`, width of the sensitivity. -/
  sensW : Nat
  /-- `SENS_FRAC`, fraction bits of the sensitivity. -/
  sensFrac : Nat
  /-- `FLOOR_W`, width of the threshold floor. -/
  floorW : Nat
  /-- `THR_W`, width of the stored threshold. -/
  thrW : Nat
  /-- `CNT_W`, width of `samplesSinceLastPeak`. -/
  cntW : Nat
  /-- `POS_W`, width of the position counter. -/
  posW : Nat
  /-- `FS_W`, width of the sample rate in Hz. -/
  fsW : Nat
  /-- `BPM_W`, width of the BPM estimate. -/
  bpmW : Nat
  /-- `MS_W`, width of elapsed milliseconds. -/
  msW : Nat
  /-- `TRACK_ABS`, whether the tracker is fed `abs(y)` (true) or `y` (false). -/
  trackAbs : Bool
  deriving DecidableEq, Repr

/-- `CNT_MAX = 2^CNT_W - 1` (R9). -/
def Params.cntMax (P : Params) : Nat := 2 ^ P.cntW - 1

/-- `FS_MAX = 2^FS_W - 1` (R9). -/
def Params.fsMax (P : Params) : Nat := 2 ^ P.fsW - 1

/-- `SENS_MAX = 2^SENS_W - 1` (R9). -/
def Params.sensMax (P : Params) : Nat := 2 ^ P.sensW - 1

/-- `SENS_ONE = 2^SENS_FRAC`, the encoding of sensitivity 1.0 (R9). -/
def Params.sensOne (P : Params) : Nat := 2 ^ P.sensFrac

/-- `FLOOR_MAX = 2^FLOOR_W - 1` (R9). -/
def Params.floorMax (P : Params) : Nat := 2 ^ P.floorW - 1

/-- `COEF_ONE = 2^COEF_FRAC`, the encoding of a tap 1.0 (R9). -/
def Params.coefOne (P : Params) : Nat := 2 ^ P.coefFrac

/-- The reference values of R7's table. -/
def Params.reference : Params where
  nbMax := 8
  sampleW := 16
  coefW := 18
  coefFrac := 16
  ntMax := 1024
  ntLog := 10
  accW := 44
  yW := 28
  tvW := 29
  idxW := 32
  dqCap := 131072
  sensW := 16
  sensFrac := 12
  floorW := 31
  thrW := 44
  cntW := 32
  posW := 32
  fsW := 20
  bpmW := 26
  msW := 42
  trackAbs := true

namespace Config

/-- The instance that `State.reset` is: the reference instance of R7 (DESIGN CHOICE, log 1). `exec` and
`step` run the instance of the state they are given, `State.params`. -/
def params : Params := Params.reference

/-- The band slots a State holds: the most that R8 allows any instance (`NB_MAX <= 8`), and exactly
the slots of the reference instance (log 13). -/
def slots : Nat := 8

/-- Reset value of every `FLOOR[b]`, a constant of the spec (R40, 92_eei_decisions D34). -/
def floorDefault : Nat := 1638

/-- FREE VALUE (R142: "an arbitrary `COEF_W`-bit value ... one value per word, stable until written"):
the power-on contents of coefficient word `k` of band `b` in power-on number `powerOn`, of which the
low `COEF_W` bits count (log 2, log 3). -/
opaque powerOnCoef (powerOn b k : Nat) : Word

/-- FREE VALUE (R144: "leaves that word either old or new"): whether the write of a CFGW that a reset
event cut short landed, for the `n`-th such choice of a run (log 9). -/
opaque cutWriteLands (n : Nat) : Bool

end Config

end Sys2Proof
end

