-- ==== Sys2Proof/Syntax.lean ====
section
/-!
DEFINITION. The command set: one constructor per row of spec/opcode_table.json (30_encoding R59).
-/

namespace Sys2Proof

/-- The six commands of R59. Each keeps both operand fields `A` and `D` of its word (R57), those it
ignores (R58) among them, so that a command word and its instruction carry the same bits (log 12). -/
inductive Instr where
  /-- NOP (R114); `a` and `d` are ignored. -/
  | nop (a : BitVec 16) (d : Word)
  /-- CFGW `addr`, `data` (R115). -/
  | cfgw (addr : CfgAddr) (data : Word)
  /-- CFGR `addr` (R116); `d` is ignored. -/
  | cfgr (addr : CfgAddr) (d : Word)
  /-- INIT (R117); `a` and `d` are ignored. -/
  | init (a : BitVec 16) (d : Word)
  /-- SAMPLE `x`, `idx` (R104); the sample is `sext_16(A)` (R66), the index is `D` (R68). -/
  | sample (x : SampleWord) (idx : Index)
  /-- STOP (R120); `a` and `d` are ignored. -/
  | stop (a : BitVec 16) (d : Word)
  deriving DecidableEq, Repr

end Sys2Proof
end

