-- ==== Sys2Proof/WellFormed.lean ====
section
/-!
DEFINITION. Which instructions are well formed, and which parameter records are legal (00_scope R8).
-/

namespace Sys2Proof

/-- Every instruction is well formed: R57's field widths stand in the types of the operands, and R58
accepts any value of a field, used or ignored. An address that names no register is no ill-formed
command: it is answered with BAD_ADDR when it is executed (R47). -/
def Instr.wellFormed : Instr → Bool
  | .nop _ _ => true
  | .cfgw _ _ => true
  | .cfgr _ _ => true
  | .init _ _ => true
  | .sample _ _ => true
  | .stop _ _ => true

/-- The form the assembler writes: every ignored operand field is 0 (R58). -/
def Instr.canonical : Instr → Bool
  | .nop a d => a == 0 && d == 0
  | .cfgw _ _ => true
  | .cfgr _ d => d == 0
  | .init a d => a == 0 && d == 0
  | .sample _ _ => true
  | .stop a d => a == 0 && d == 0

/-- The constraints of R8 on the freely chosen parameters, in R8's order. -/
def Params.rangesLegal (P : Params) : Bool :=
  decide (1 ≤ P.nbMax) && decide (P.nbMax ≤ 8)
    && decide (P.sampleW = 16)
    && decide (2 ≤ P.coefW) && decide (P.coefW ≤ 32) && decide (P.coefFrac < P.coefW)
    && decide (1 ≤ P.ntMax) && decide (P.ntMax ≤ 1024)
    && decide (P.idxW = 32)
    && decide (1 ≤ P.dqCap) && decide (P.dqCap < 2 ^ 31)
    && decide (1 ≤ P.sensW) && decide (P.sensW ≤ 32) && decide (P.sensFrac ≤ P.sensW)
    && decide (1 ≤ P.floorW) && decide (P.floorW ≤ 31)
    && decide (P.cntW = 32) && decide (P.posW = 32)
    && decide (1 ≤ P.fsW) && decide (P.fsW ≤ 26)

/-- The constraints of R8 on the derived widths. `NT_LOG = ceil(log2(NT_MAX))` is said as: the least
exponent whose power of two reaches `NT_MAX`. -/
def Params.widthsLegal (P : Params) : Bool :=
  decide (P.ntMax ≤ 2 ^ P.ntLog) && decide (P.ntLog = 0 ∨ 2 ^ (P.ntLog - 1) < P.ntMax)
    && decide (P.accW = P.sampleW + P.coefW + P.ntLog)
    && decide (P.yW = P.accW - P.coefFrac)
    && decide (P.tvW = P.yW + 1)
    && decide (P.thrW = max (P.tvW - 1 + P.sensW) (P.floorW + P.sensFrac))
    && decide (P.thrW ≤ 64)
    && decide (P.bpmW = P.fsW + 6)
    && decide (P.msW = P.posW + 10)

/-- R8: "A parameter record is legal only if all hold". -/
def Params.legal (P : Params) : Bool := P.rangesLegal && P.widthsLegal

end Sys2Proof
end

