-- ==== Sys2Proof/Decode.lean ====
section
/-!
DEFINITION. The decoder of a command word and, after it, the encoder (30_encoding R57 to R60).
-/

namespace Sys2Proof

/-- Why a command word is no command (R60). The block answers both the same way, `nak(ILLEGAL)`. -/
inductive DecodeRefusal where
  /-- `OP` is in `0x6 .. 0xF`. -/
  | reservedOpcode (op : BitVec 4)
  /-- `RSV` is not `0x000`. -/
  | reservedFieldSet (rsv : BitVec 12)
  deriving DecidableEq, Repr

/-- R60: "every 64-bit word is exactly one of the six commands or illegal". -/
inductive Decoded where
  | command (i : Instr)
  | illegal (why : DecodeRefusal)
  deriving DecidableEq, Repr

/-- Field `OP`, bits 63:60 (R57). -/
def fieldOP (w : CmdWord) : BitVec 4 := w.extractLsb' 60 4

/-- Field `RSV`, bits 59:48 (R57). -/
def fieldRSV (w : CmdWord) : BitVec 12 := w.extractLsb' 48 12

/-- Field `A`, bits 47:32 (R57). -/
def fieldA (w : CmdWord) : BitVec 16 := w.extractLsb' 32 16

/-- Field `D`, bits 31:0 (R57). -/
def fieldD (w : CmdWord) : BitVec 32 := w.extractLsb' 0 32

/-- The opcode map of R59 on the opcode and the two operand fields. -/
def decodeOpcode (op : BitVec 4) (a : BitVec 16) (d : Word) : Decoded :=
  match op.toNat with
  | 0 => .command (.nop a d)
  | 1 => .command (.cfgw a d)
  | 2 => .command (.cfgr a d)
  | 3 => .command (.init a d)
  | 4 => .command (.sample a d)
  | 5 => .command (.stop a d)
  | _ => .illegal (.reservedOpcode op)

/-- The decoder: the same in both modes, total (R57, R60). Where both reasons of R60 hold, the
reserved field is the one named (log 14). -/
def decode (w : CmdWord) : Decoded :=
  if fieldRSV w = 0 then decodeOpcode (fieldOP w) (fieldA w) (fieldD w)
  else .illegal (.reservedFieldSet (fieldRSV w))

/-- The decoded instruction, where there is one. -/
def Decoded.instr? : Decoded → Option Instr
  | .command i => some i
  | .illegal _ => none

/-- A command word from its four fields (R57). -/
def commandWord (op : BitVec 4) (rsv : BitVec 12) (a : BitVec 16) (d : Word) : CmdWord :=
  op ++ rsv ++ a ++ d

/-- `OP` of each command (R59). -/
def Instr.opcode : Instr → BitVec 4
  | .nop _ _ => 0x0
  | .cfgw _ _ => 0x1
  | .cfgr _ _ => 0x2
  | .init _ _ => 0x3
  | .sample _ _ => 0x4
  | .stop _ _ => 0x5

/-- Field `A` of each command (R58). -/
def Instr.operandA : Instr → BitVec 16
  | .nop a _ => a
  | .cfgw addr _ => addr
  | .cfgr addr _ => addr
  | .init a _ => a
  | .sample x _ => x
  | .stop a _ => a

/-- Field `D` of each command (R58). -/
def Instr.operandD : Instr → Word
  | .nop _ d => d
  | .cfgw _ data => data
  | .cfgr _ d => d
  | .init _ d => d
  | .sample _ idx => idx
  | .stop _ d => d

/-- The encoder: the command word of an instruction (R57 to R59). -/
def encode (i : Instr) : CmdWord := commandWord i.opcode 0 i.operandA i.operandD

/-- One row of R59's opcode map: a word `w` is the command when `(w AND mask) = match`. -/
structure OpcodeRow where
  mnemonic : String
  pattern : CmdWord
  mask : CmdWord
  deriving DecidableEq, Repr

/-- The six rows of R59, as spec/opcode_table.json has them. -/
def opcodeMap : List OpcodeRow :=
  [ ⟨"nop", 0x0000000000000000, 0xFFFF000000000000⟩,
    ⟨"cfgw", 0x1000000000000000, 0xFFFF000000000000⟩,
    ⟨"cfgr", 0x2000000000000000, 0xFFFF000000000000⟩,
    ⟨"init", 0x3000000000000000, 0xFFFF000000000000⟩,
    ⟨"sample", 0x4000000000000000, 0xFFFF000000000000⟩,
    ⟨"stop", 0x5000000000000000, 0xFFFF000000000000⟩ ]

/-- A row of the opcode map matches a word (R59). -/
def OpcodeRow.fits (r : OpcodeRow) (w : CmdWord) : Bool := w &&& r.mask == r.pattern

/-- The mnemonic of a command, as the opcode table spells it. -/
def Instr.mnemonic : Instr → String
  | .nop _ _ => "nop"
  | .cfgw _ _ => "cfgw"
  | .cfgr _ _ => "cfgr"
  | .init _ _ => "init"
  | .sample _ _ => "sample"
  | .stop _ _ => "stop"

/-- The command word whose low `nbits` bits are those of `w` and whose other bits are 0. A command
word crosses the port whole, so there is no byte order to lay out (R44, R57). -/
def tableWord (nbits w : Nat) : CmdWord := BitVec.ofNat 64 (w % 2 ^ nbits)

/-- The instruction the decoder reads from the opcode-table word `w` of `nbits` bits. -/
def decodeTableWord (nbits w : Nat) : Option Instr := (decode (tableWord nbits w)).instr?

end Sys2Proof
end

