-- ==== Sys2Proof/Machine/State.lean ====
section
/-!
DEFINITION. The state of the block (10_state R15), the reasons a step can stop, and the machine right
after reset (R40, R141).
-/

namespace Sys2Proof.Machine

/-- `mode` (R17). -/
inductive Mode where
  /-- `CONFIG` (0): no Band Bank exists; configuration may be written, samples are refused. -/
  | config
  /-- `RUN` (1): the Band Bank exists; samples are accepted, configuration is read-only. -/
  | run
  deriving DecidableEq, Repr

/-- An array of words by number, as a list of (number, word) pairs with the numbers strictly rising
(`Memory.wf`). What an unlisted number reads as is said where each array is read: `coefAt` for the
coefficient memory, `delayAt` for a delay line (log 4, log 5). -/
abbrev Memory (α : Type) := List (Nat × α)

/-- One entry `(val, idx)` of a deque (R29). -/
structure DqEntry where
  val : Int
  idx : Index
  deriving DecidableEq, Repr

/-- One band slot: every per-band element of R15. Stored integers that the spec proves to fit their
width (R10) are held as integers; `BandInv` of Safety.lean says the widths (log 10). -/
structure Band where
  /-- `NTAPS[b]`, the tap count (R22). -/
  ntaps : Word
  /-- `WLEN[b]`, the window length in samples (R23). -/
  wlen : Word
  /-- `SENS[b]`, the sensitivity with `SENS_FRAC` fraction bits (R24). -/
  sens : Word
  /-- `FLOOR[b]`, the minimum absolute threshold floor (R25). -/
  floor : Word
  /-- `MINDIST[b]`, the minimum inter-peak distance in samples (R26). -/
  minDist : Word
  /-- `coef[b][k]`: the coefficient words written since power-on (R27, R142). -/
  coef : Memory Int
  /-- `dl[b][j]`: the delay-line words that are not 0 (R28). -/
  dl : Memory SampleWord
  /-- `cur[b]`, the write cursor of the delay line (R28). -/
  cur : Nat
  /-- `dq[b]`, the deque, old end first (R29). -/
  dq : List DqEntry
  /-- `THR[b]`, the threshold scaled by `2^SENS_FRAC` (R34). -/
  thr : Nat
  /-- `SSLP[b]`, samplesSinceLastPeak (R31). -/
  sslp : Word
  /-- `POS[b]`, the position counter (R32). -/
  pos : Word
  /-- `BPM[b]`, the last BPM estimate (R33). -/
  bpm : Nat
  deriving DecidableEq, Repr

/-- One word of the response channel with its `rsp_last` (R55). -/
structure RspWord where
  word : Word
  last : Bool
  deriving DecidableEq, Repr

/-- What the host does next (R6, R152: a run is a sequence of reset events and commands). -/
inductive HostEvent where
  /-- The host presents a command word and takes its whole response (R56). -/
  | command (w : CmdWord)
  /-- A reset event while no command is in progress (R140). -/
  | reset
  /-- The host presents a command word, and a reset event comes when exactly `taken` words of its
  response have been transferred (R144). -/
  | commandCutByReset (w : CmdWord) (taken : Nat)
  deriving DecidableEq, Repr

/-- The state of the machine: R15's tuple, and after it the model's own five fields. -/
structure State where
  /-- `mode` (R17). -/
  mode : Mode
  /-- `DQOVF`, the sticky flag (R18). -/
  dqovf : Bool
  /-- `CFGERR` (R19). -/
  cfgerr : BitVec 16
  /-- `FS`, the sample rate in Hz (R20). -/
  fs : Word
  /-- `NBANDS`, the number of configured bands (R21). -/
  nbands : Word
  /-- The band slots (R15). -/
  bands : Vector Band Config.slots
  /-- MODEL: the parameter record of the instance whose state this is (R7). It is fixed when the block is
  built (R39): no step changes it (log 1). -/
  params : Params
  /-- MODEL: what the host still does, oldest first (log 6). -/
  host : List HostEvent
  /-- MODEL: the response words transferred so far, oldest first (log 8). -/
  out : List RspWord
  /-- MODEL: which power-on the run started from (log 3). -/
  powerOn : Nat
  /-- MODEL: how many free choices of R144 the run has taken (log 9). -/
  freeCount : Nat
  deriving DecidableEq, Repr

/-- The reasons a step stops the machine. The spec gives the block none (R130, R139). -/
inductive Fault where
  /-- Raised by SAMPLE alone, in RUN, where FS is 0, NBANDS exceeds the band slots, or a configured
  band's tap count is outside `1 .. NT_MAX`: SAMPLE's rules divide by FS and index by the tap count
  and are not defined there (R12, R72, R108). No run reaches such a state (R37, R118). Safe: the model
  stops (log 11). -/
  | sampleOutsideDomain
  deriving DecidableEq, Repr

/-- The reasons an instruction has no meaning in the model. -/
inductive Refusal where
  /-- Raised by an arm of `exec` that has no meaning yet; none is left. Safe: the model stops. -/
  | notModelled (mnemonic : String)
  deriving DecidableEq, Repr

/-- A band slot after power-on and a reset event: the "after reset" column of R40. `SENS_ONE` fits the
32-bit register unless `SENS_FRAC = SENS_W = 32`; there R40 states no value that fits, and the low 32
bits, 0, are the model's (DESIGN CHOICE, log 17). An all-zero delay line is the model's as well, allowed
by R143 (log 5). -/
def Band.reset (P : Params) : Band where
  ntaps := 0
  wlen := 0
  sens := BitVec.ofNat 32 P.sensOne
  floor := BitVec.ofNat 32 Config.floorDefault
  minDist := 0
  coef := []
  dl := []
  cur := 0
  dq := []
  thr := 0
  sslp := BitVec.ofNat 32 P.cntMax
  pos := 0
  bpm := 0

/-- The instance with parameters `P` after power-on and a reset event, before its first command (R7, R40,
R141). -/
def State.resetOf (P : Params) : State where
  mode := .config
  dqovf := false
  cfgerr := 0
  fs := 0
  nbands := 0
  bands := Vector.replicate Config.slots (Band.reset P)
  params := P
  host := []
  out := []
  powerOn := 0
  freeCount := 0

/-- The machine after power-on and a reset event: the reference instance (log 1). -/
def State.reset : State := State.resetOf Config.params

end Sys2Proof.Machine
end

