-- ==== Sys2Proof/Machine/Operands.lean ====
section
/-!
DEFINITION. The number formats and the pseudocode primitives of 00_scope: two's complement (section 5),
R11 to R14, and the operand forms of 30_encoding R49, R66, R68. Integer arithmetic is exact (R10).
-/

namespace Sys2Proof.Machine

/-- `sext_n(p)`: the integer that the low `n` bits of `p` denote in two's complement (00_scope
section 5). -/
def sextN (n p : Nat) : Int :=
  if p % 2 ^ n < 2 ^ (n - 1) then (p % 2 ^ n : Nat) else ((p % 2 ^ n : Nat) : Int) - 2 ^ n

/-- `floor_shr(v, n) = v // 2^n` (R11): the greatest integer not above `v / 2^n`. -/
def floorShr (v : Int) (n : Nat) : Int := v / 2 ^ n

/-- `rhu(n, d) = (2*n + d) // (2*d)` (R12), round half up; the rules call it with `d >= 1` only. -/
def rhu (n d : Nat) : Nat := (2 * n + d) / (2 * d)

/-- `sat_inc(v) = min(v + 1, CNT_MAX)` (R13). -/
def satInc (P : Params) (v : Word) : Word := BitVec.ofNat 32 (min (v.toNat + 1) P.cntMax)

/-- `wrap_inc(v) = (v + 1) mod 2^POS_W` (R13). -/
def wrapInc (P : Params) (v : Word) : Word := BitVec.ofNat 32 ((v.toNat + 1) % 2 ^ P.posW)

/-- `age(idx, eidx) = (idx - eidx) mod 2^IDX_W` (R14); indices have `IDX_W = 32` bits (R8). -/
def age (idx eidx : Index) : Nat := (idx - eidx).toNat

/-- The sample operand, `x = sext_16(A)` (R66), and a delay-line word read as a signed integer (R72). -/
def sampleValue (x : SampleWord) : Int := x.toInt

/-- The value a write of `v` to a coefficient word stores: `v[COEF_W-1:0]` in two's complement
(R27, R49). -/
def coefValue (P : Params) (v : Word) : Int := sextN P.coefW v.toNat

/-- A signed integer as a 32-bit two's complement pattern, the form a read of a coefficient word
returns (R49). -/
def signedWord (v : Int) : Word := BitVec.ofInt 32 v

/-- An unsigned stored number zero-extended to a 32-bit register word (R42, R43). -/
def unsignedWord (n : Nat) : Word := BitVec.ofNat 32 n

/-- `THR[b][31:0]` (R42). -/
def thrLow (thr : Nat) : Word := BitVec.ofNat 32 thr

/-- `THR[b][THR_W-1:32]` zero-extended to 32 bits, 0 when `THR_W <= 32` (R42). -/
def thrHigh (P : Params) (thr : Nat) : Word := BitVec.ofNat 32 (thr % 2 ^ P.thrW / 2 ^ 32)

/-- The value the band bank pushes into the tracker: `abs(y)` if `TRACK_ABS`, else `y` (R106). -/
def trackerInput (P : Params) (y : Int) : Int := if P.trackAbs then |y| else y

end Sys2Proof.Machine
end

