-- ==== Sys2Proof/Machine/Flags.lean ====
section
/-!
DEFINITION. Every flag and every flag-like condition of the spec: `DQOVF` and the packed `STATUS` word
(10_state R18, 20_memory R43), the comparisons of a peak detector step (42_peak_detector R94, R95)
and the two-state view of it (R101).
-/

namespace Sys2Proof.Machine

/-- The bit of `mode`: 0 `CONFIG`, 1 `RUN` (R17). -/
def Mode.bit : Mode → Bool
  | .config => false
  | .run => true

/-- `STATUS`: bit 0 `mode`, bit 1 `DQOVF`, bits 31:2 read 0 (R43). -/
def statusWord (s : State) : Word :=
  (0 : BitVec 30) ++ BitVec.ofBool s.dqovf ++ BitVec.ofBool s.mode.bit

/-- `CFGERR` as a 32-bit word: bits 31:16 read 0 (R43). -/
def cfgerrWord (s : State) : Word := (0 : BitVec 16) ++ s.cfgerr

/-- The condition of the capacity guard: the deque is full at the append (R81, R85). -/
def dequeFull (P : Params) (d : List DqEntry) : Bool := d.length == P.dqCap

/-- `DQOVF` is sticky: the capacity guard sets it and nothing in a SAMPLE clears it (R18, R85). -/
def stickyOverflow (old guardFired : Bool) : Bool := old || guardFired

/-- `over`: `y * 2^SENS_FRAC >= thr` on signed integers (R94). -/
def overThreshold (P : Params) (y : Int) (thr : Nat) : Bool := decide ((thr : Int) ≤ y * 2 ^ P.sensFrac)

/-- `deb`: `SSLP[b] > MINDIST[b]`, strict and unsigned (R95). -/
def debounceOk (sslp minDist : Word) : Bool := decide (minDist.toNat < sslp.toNat)

/-- The two states of the debounce machine, derived from the counter (R101). -/
inductive DebounceState where
  | holdoff
  | armed
  deriving DecidableEq, Repr

/-- R101: `HOLDOFF` when `SSLP[b] <= MINDIST[b]`, `ARMED` when `SSLP[b] > MINDIST[b]`. -/
def debounceState (B : Band) : DebounceState :=
  if debounceOk B.sslp B.minDist then .armed else .holdoff

end Sys2Proof.Machine
end

