-- ==== Sys2Proof/Machine/Response.lean ====
section
/-!
DEFINITION. Responses and their words (30_encoding R61 to R65), error codes (R64) and configuration
error causes (60_exceptions R125).
-/

namespace Sys2Proof.Machine

/-- The NAK error codes of R64. -/
inductive NakCode where
  | illegal
  | badState
  | badAddr
  | cfgInvalid
  deriving DecidableEq, Repr

/-- `INFO` of a NAK header (R64). -/
def NakCode.info : NakCode → BitVec 8
  | .illegal => 0x01
  | .badState => 0x02
  | .badAddr => 0x03
  | .cfgInvalid => 0x04

/-- The causes a failed INIT records (R125); cause `0x00`, no error, is the register's value 0. -/
inductive CfgCause where
  | fsRange
  | nbandsRange
  | ntapsZero
  | ntapsCap
  | wlenZero
  | wlenCap
  | sensRange
  | floorRange
  deriving DecidableEq, Repr

/-- `CFGERR[7:0]` of a cause (R125). -/
def CfgCause.code : CfgCause → BitVec 8
  | .fsRange => 0x01
  | .nbandsRange => 0x02
  | .ntapsZero => 0x03
  | .ntapsCap => 0x04
  | .wlenZero => 0x05
  | .wlenCap => 0x06
  | .sensRange => 0x07
  | .floorRange => 0x08

/-- A configuration error: the first failing check's cause and the band it belongs to (R118). -/
structure ConfigError where
  cause : CfgCause
  /-- `0xFF` for a cause that belongs to no band (R125). -/
  band : BitVec 8
  deriving DecidableEq, Repr

/-- `CFGERR = band * 256 + cause` (R125). -/
def ConfigError.word (e : ConfigError) : BitVec 16 := e.band ++ e.cause.code

/-- A peak event (R38). -/
structure PeakEvent where
  band : Nat
  elapsedMs : Nat
  samplePosition : Word
  deriving DecidableEq, Repr

/-- The four forms of a response (R61). -/
inductive Response where
  | ack
  | data (v : Word)
  | peaks (mask : BitVec 8) (events : List PeakEvent)
  | nak (code : NakCode)
  deriving DecidableEq, Repr

/-- A header word from `KIND` and `INFO`; bits 27:8 are 0 (R61). -/
def headerWord (kind : BitVec 4) (info : BitVec 8) : Word := kind ++ (0 : BitVec 20) ++ info

/-- The four words `E0` to `E3` of an event record (R63). -/
def eventWords (P : Params) (e : PeakEvent) : List Word :=
  [ BitVec.ofNat 32 e.band,
    e.samplePosition,
    BitVec.ofNat 32 e.elapsedMs,
    BitVec.ofNat 32 (e.elapsedMs % 2 ^ P.msW / 2 ^ 32) ]

/-- The words of a response in transfer order (R61 to R63). -/
def responseWords (P : Params) : Response → List Word
  | .ack => [headerWord 0x0 0]
  | .data v => [headerWord 0x1 0, v]
  | .peaks mask events => headerWord 0x2 mask :: events.flatMap (eventWords P)
  | .nak code => [headerWord 0xF code.info]

/-- A response on the response channel: `rsp_last` is 1 on the final word and 0 on the others (R65). -/
def markLast : List Word → List RspWord
  | [] => []
  | [w] => [⟨w, true⟩]
  | w :: v :: rest => ⟨w, false⟩ :: markLast (v :: rest)

/-- How many bits of an 8-bit mask are set. -/
def popcount (m : BitVec 8) : Nat := ((List.range 8).filter fun i => m.getLsbD i).length

/-- Length of a response from its header alone (R65); none for a `KIND` that is never produced (R61). -/
def responseLength (header : Word) : Option Nat :=
  match (header.extractLsb' 28 4).toNat with
  | 0x0 => some 1
  | 0x1 => some 2
  | 0x2 => some (1 + 4 * popcount (header.extractLsb' 0 8))
  | 0xF => some 1
  | _ => none

end Sys2Proof.Machine
end

