-- ==== Sys2Proof/Machine/Ops.lean ====
section
/-!
DEFINITION. The named operations over memories, band slots and responses; the rejection of a command
(the block's only exception mechanism, 60_exceptions R122 to R129); a reset event (70 R140 to R144).
-/

namespace Sys2Proof.Machine

/-! ### Word arrays in canonical form -/

/-- The listed word number `k`, if it is listed. -/
def Memory.read {α : Type} (m : Memory α) (k : Nat) : Option α :=
  match m with
  | [] => none
  | (j, v) :: rest => if k = j then some v else Memory.read rest k

/-- List `v` as word number `k`, keeping the numbers rising. -/
def Memory.write {α : Type} (m : Memory α) (k : Nat) (v : α) : Memory α :=
  match m with
  | [] => [(k, v)]
  | (j, u) :: rest =>
    if k < j then (k, v) :: (j, u) :: rest
    else if k = j then (k, v) :: rest
    else (j, u) :: Memory.write rest k v

/-- Take word number `k` off the list. -/
def Memory.erase {α : Type} (m : Memory α) (k : Nat) : Memory α :=
  match m with
  | [] => []
  | (j, u) :: rest => if k = j then rest else (j, u) :: Memory.erase rest k

/-- The canonical form: the numbers rise strictly. -/
def Memory.wf {α : Type} (m : Memory α) : Bool :=
  match m with
  | [] => true
  | [_] => true
  | (j, _) :: (k, v) :: rest => decide (j < k) && Memory.wf ((k, v) :: rest)

/-- `coef[b][k]` as FIR and CFGR read it: the written value, or the free power-on contents of a word
nothing has written (R27, R142; log 2). -/
def coefAt (P : Params) (powerOn b : Nat) (m : Memory Int) (k : Nat) : Int :=
  (Memory.read m k).getD (coefValue P (Config.powerOnCoef powerOn b k))

/-- `coef[b][k] <- v[COEF_W-1:0]` (R49). -/
def coefWrite (P : Params) (m : Memory Int) (k : Nat) (v : Word) : Memory Int :=
  Memory.write m k (coefValue P v)

/-- `dl[b][j]`: an unlisted word is 0 (R28, R77, R143; log 5). -/
def delayAt (m : Memory SampleWord) (j : Nat) : SampleWord := (Memory.read m j).getD 0

/-- `dl[b][j] <- x`; a word that becomes 0 is not listed. -/
def delayWrite (m : Memory SampleWord) (j : Nat) (x : SampleWord) : Memory SampleWord :=
  if x = 0 then Memory.erase m j else Memory.write m j x

/-- The canonical form of a delay line: rising word numbers and no listed 0. -/
def delayWf (m : Memory SampleWord) : Bool := Memory.wf m && m.all fun c => c.2 != 0

/-! ### Band slots -/

/-- Band slot `b`; a slot that does not exist is never addressed (R42), and what the model reads there is
no matter. -/
def State.band (s : State) (b : Nat) : Band := (s.bands[b]?).getD (Band.reset Config.params)

/-- Replace band slot `b`. -/
def State.setBand (s : State) (b : Nat) (B : Band) : State :=
  { s with bands := s.bands.setIfInBounds b B }

/-! ### Responses and rejections -/

/-- The command ends with the response `r` (R56): its words go to the response channel in order. -/
def respond (P : Params) (r : Response) (s : State) : State :=
  { s with out := s.out ++ markLast (responseWords P r) }

/-- `nak(code)`: the command ends with a NAK and changes no state (R123). This is what the block has for
taking an exception: nothing is saved, no mode changes, no vector is taken. There is nothing to return
from (R129). -/
def nak (P : Params) (code : NakCode) (s : State) : State := respond P (.nak code) s

/-- `cfgerror(cause, band)`: `CFGERR` records the error and INIT ends with `nak(CFG_INVALID)`; every
other element of state is unchanged (R118, R128). -/
def cfgError (P : Params) (e : ConfigError) (s : State) : State :=
  nak P .cfgInvalid { s with cfgerr := e.word }

/-- An illegal command word: no state change, `nak(ILLEGAL)`, in both modes (R60, R121). -/
def rejectIllegal (P : Params) (s : State) : State := nak P .illegal s

/-! ### Reset -/

/-- A band slot after a reset event: R40's values, the coefficient memory as it was (R141, R142). -/
def resetBand (P : Params) (B : Band) : Band := { Band.reset P with coef := B.coef }

/-- A reset event (R140, R141): every element takes the value R40 gives it, except the coefficient
memory (R142). What the host does next and what it has received are not the block's to reset (log 8). -/
def resetEvent (P : Params) (s : State) : State :=
  { s with
    mode := .config
    dqovf := false
    cfgerr := 0
    fs := 0
    nbands := 0
    bands := s.bands.map (resetBand P) }

/-- A reset event that cuts a command short after `taken` words of its response (R144). `before` is the
state in which the command was accepted, `after` the state the whole command would have led to. The
remaining response words are never produced; a coefficient word the command was writing is old or new,
by a free choice, unless the whole response was transferred, when the command had completed (R150;
log 9, log 15). -/
def cutByReset (P : Params) (before after : State) (taken : Nat) : State :=
  let completed := decide (after.out.length ≤ before.out.length + taken)
  let kept := if completed || Config.cutWriteLands before.freeCount then after else before
  { resetEvent P kept with
    out := after.out.take (before.out.length + taken)
    freeCount := before.freeCount + 1 }

end Sys2Proof.Machine
end

