-- ==== Sys2Proof/Machine/Fir.lean ====
section
/-!
DEFINITION. Unit FIR, the delay-line FIR filter: `FIR_apply` (40_fir_filter R71 to R79).
-/

namespace Sys2Proof.Machine

/-- `T = NTAPS[b]`, the tap count (R72). -/
def Band.tapCount (B : Band) : Nat := B.ntaps.toNat

/-- The product of tap `k` and the `k`-th most recent sample, `coef[b][k] * dl[b][(cur + T - k) mod T]`
(R72, R73). `tap` is the coefficient memory as it reads. -/
def firTerm (tap : Nat → Int) (B : Band) (k : Nat) : Int :=
  tap k * sampleValue (delayAt B.dl ((B.cur + B.tapCount - k) % B.tapCount))

/-- The convolution sum of R72, step 2: exact, never clamped (R74). -/
def firAcc (tap : Nat → Int) (B : Band) : Int :=
  (List.range B.tapCount).foldl (fun acc k => acc + firTerm tap B k) 0

/-- Step 1 of R72: the sample goes into the delay line at the cursor. -/
def firStore (B : Band) (x : SampleWord) : Band := { B with dl := delayWrite B.dl B.cur x }

/-- Step 3 of R72: the cursor advances modulo the buffer length. -/
def firAdvance (B : Band) : Band := { B with cur := (B.cur + 1) % B.tapCount }

/-- What `FIR_apply` gives: the band afterwards and the filtered sample. -/
structure FirResult where
  band : Band
  y : Int
  deriving DecidableEq, Repr

/-- `FIR_apply(b, x)` (R72): store, sum, advance, drop the fraction bits (R75). -/
def firApply (P : Params) (tap : Nat → Int) (B : Band) (x : SampleWord) : FirResult where
  band := firAdvance (firStore B x)
  y := floorShr (firAcc tap (firStore B x)) P.coefFrac

end Sys2Proof.Machine
end

