-- ==== Sys2Proof/Machine/PeakDetector.lean ====
section
/-!
DEFINITION. Unit PKD, the peak detector, debounce machine and BPM estimator: `PKD_step`
(42_peak_detector R91 to R103).
-/

namespace Sys2Proof.Machine

/-- Step 1 of R92, the threshold scaled by `2^SENS_FRAC`: `max(wm * SENS[b], FLOOR[b] * 2^SENS_FRAC)`,
never negative (R93). -/
def threshold (P : Params) (B : Band) (wm : Int) : Nat :=
  (max (wm * B.sens.toNat) (B.floor.toNat * 2 ^ P.sensFrac)).toNat

/-- The BPM estimate of R100: `rhu(60 * FS, SSLP[b])`. -/
def bpmEstimate (fs sslp : Word) : Nat := rhu (60 * fs.toNat) sslp.toNat

/-- Step 4 of R92, the peak path: `BPM[b]` from the counter, the counter to 0, `POS[b]` unchanged (R96). -/
def peakPath (fs : Word) (B : Band) : Band := { B with bpm := bpmEstimate fs B.sslp, sslp := 0 }

/-- Step 5 of R92, the non-peak path: `POS[b]` wraps, `SSLP[b]` saturates (R97 to R99). -/
def nonPeakPath (P : Params) (B : Band) : Band :=
  { B with pos := wrapInc P B.pos, sslp := satInc P B.sslp }

/-- The decision of steps 2 to 4: `over and deb`, both on the state before the step (R92). -/
def isPeak (P : Params) (B : Band) (y wm : Int) : Bool :=
  overThreshold P y (threshold P B wm) && debounceOk B.sslp B.minDist

/-- What `PKD_step` gives: the band afterwards and whether the sample is a peak; the `bpm` it also
returns is `BPM[b]` of that band (R91). -/
structure PkdResult where
  band : Band
  peak : Bool
  deriving DecidableEq, Repr

/-- `PKD_step(b, y, wm)` (R92). -/
def pkdStep (P : Params) (fs : Word) (B : Band) (y wm : Int) : PkdResult :=
  let B1 := { B with thr := threshold P B wm }
  if isPeak P B y wm then ⟨peakPath fs B1, true⟩ else ⟨nonPeakPath P B1, false⟩

end Sys2Proof.Machine
end

