-- ==== Sys2Proof/Machine/SlidingMax.lean ====
section
/-!
DEFINITION. Unit SWM, the sliding-window maximum tracker: `SWM_push` (41_sliding_max R80 to R90).
-/

namespace Sys2Proof.Machine

/-- Step 1 of R81: entries whose age has reached the window length leave at the old end (R83). -/
def dropStale (w : Nat) (idx : Index) (d : List DqEntry) : List DqEntry :=
  d.dropWhile fun e => decide (w ≤ age idx e.idx)

/-- Step 2 of R81: entries whose value is `<=` the incoming value leave at the new end (R84). -/
def dropDominated (v : Int) (d : List DqEntry) : List DqEntry :=
  (d.reverse.dropWhile fun e => decide (e.val ≤ v)).reverse

/-- What steps 1 and 2 of R81 leave of the deque. -/
def evict (w : Nat) (v : Int) (idx : Index) (d : List DqEntry) : List DqEntry :=
  dropDominated v (dropStale w idx d)

/-- The capacity guard of R85: a full deque loses its old-end entry. -/
def makeRoom (P : Params) (d : List DqEntry) : List DqEntry := if dequeFull P d then d.tail else d

/-- What `SWM_push` gives: the deque afterwards, whether the capacity guard fired, and the window
maximum. -/
structure SwmResult where
  dq : List DqEntry
  guardFired : Bool
  wm : Int
  deriving DecidableEq, Repr

/-- `SWM_push(b, v, idx)` on a deque with window length `w` (R81): evict, guard, append, read the old
end (R86). -/
def swmPush (P : Params) (w : Nat) (d : List DqEntry) (v : Int) (idx : Index) : SwmResult :=
  let kept := evict w v idx d
  let pushed := makeRoom P kept ++ [⟨v, idx⟩]
  { dq := pushed
    guardFired := dequeFull P kept
    wm := (pushed.headD ⟨v, idx⟩).val }

end Sys2Proof.Machine
end

