-- ==== Sys2Proof/Machine/BandBank.lean ====
section
/-!
DEFINITION. Unit BBO, the band bank: the SAMPLE command (43_band_bank R104 to R113).
-/

namespace Sys2Proof.Machine

/-- What one band's pipeline gives. -/
structure BandResult where
  band : Band
  peak : Bool
  guardFired : Bool
  deriving DecidableEq, Repr

/-- One band's pipeline, FIR, then SWM, then PKD (R105), on the band alone: `tap` is its coefficient
memory as it reads. -/
def bandPipeline (P : Params) (fs : Word) (tap : Nat → Int) (B : Band) (x : SampleWord) (idx : Index) :
    BandResult :=
  let fir := firApply P tap B x
  let swm := swmPush P fir.band.wlen.toNat fir.band.dq (trackerInput P fir.y) idx
  let pkd := pkdStep P fs { fir.band with dq := swm.dq } fir.y swm.wm
  { band := pkd.band, peak := pkd.peak, guardFired := swm.guardFired }

/-- `elapsedMs = rhu(1000 * POS[b], FS)` (R108). -/
def elapsedMs (fs pos : Word) : Nat := rhu (1000 * pos.toNat) fs.toNat

/-- The event of a peak of band `b`, from `POS[b]` as it stands after the step (R107). -/
def peakEvent (fs : Word) (b : Nat) (B : Band) : PeakEvent where
  band := b
  elapsedMs := elapsedMs fs B.pos
  samplePosition := B.pos

/-- The running values of SAMPLE's loop: the state, `mask` and `events` (R104). -/
structure BankAcc where
  st : State
  mask : Nat
  events : List PeakEvent
  deriving DecidableEq, Repr

/-- One turn of SAMPLE's loop: band `b`'s pipeline, then its event if it peaked (R104). -/
def sampleBand (P : Params) (x : SampleWord) (idx : Index) (acc : BankAcc) (b : Nat) : BankAcc :=
  let s := acc.st
  let B := s.band b
  let r := bandPipeline P s.fs (coefAt P s.powerOn b B.coef) B x idx
  let s' := { s.setBand b r.band with dqovf := stickyOverflow s.dqovf r.guardFired }
  if r.peak then
    { st := s', mask := acc.mask + 2 ^ b, events := acc.events ++ [peakEvent s.fs b r.band] }
  else { acc with st := s' }

/-- SAMPLE's loop over the configured bands in ascending order (R104, R109). -/
def sampleLoop (P : Params) (x : SampleWord) (idx : Index) (s : State) : BankAcc :=
  (List.range s.nbands.toNat).foldl (sampleBand P x idx) { st := s, mask := 0, events := [] }

/-- SAMPLE in RUN: the loop, then the PEAKS response (R104, R110). -/
def processSample (P : Params) (x : SampleWord) (idx : Index) (s : State) : State :=
  let acc := sampleLoop P x idx s
  respond P (.peaks (BitVec.ofNat 8 acc.mask) acc.events) acc.st

/-- SAMPLE's rules are defined in this state: the divisor FS is not 0 (R108), the configured bands are
slots of the block (R62), and every configured tap count is in `1 .. NT_MAX` (R72). INIT guarantees all
three (R118). -/
def sampleDefined (P : Params) (s : State) : Bool :=
  s.fs != 0 && decide (s.nbands.toNat ≤ P.nbMax)
    && (List.range s.nbands.toNat).all fun b =>
      decide (1 ≤ (s.band b).tapCount) && decide ((s.band b).tapCount ≤ P.ntMax)

/-- SAMPLE (R104) in an instance with parameters `P`. -/
def sampleWith (P : Params) (x : SampleWord) (idx : Index) (s : State) :
    Host.Outcome State Fault Refusal :=
  match s.mode with
  | .config => .next (nak P .badState s)
  | .run => if sampleDefined P s then .next (processSample P x idx s) else .fault .sampleOutsideDomain

/-- The meaning of SAMPLE (R104). -/
def execSample (x : SampleWord) (idx : Index) (s : State) : Host.Outcome State Fault Refusal :=
  sampleWith s.params x idx s

end Sys2Proof.Machine
end

