-- ==== Sys2Proof/Machine/ConfigSpace.lean ====
section
/-!
DEFINITION. The configuration space: address map, access kinds, `CfgRead` and `CfgWrite`
(20_memory R41 to R49).
-/

namespace Sys2Proof.Machine

/-- The named words of the configuration space (R42). -/
inductive ConfigReg where
  | status
  | cfgerr
  | fs
  | nbands
  | ntaps (b : Nat)
  | wlen (b : Nat)
  | sens (b : Nat)
  | floor (b : Nat)
  | minDist (b : Nat)
  | sslp (b : Nat)
  | pos (b : Nat)
  | bpm (b : Nat)
  | thrLo (b : Nat)
  | thrHi (b : Nat)
  | dqlen (b : Nat)
  | coef (b k : Nat)
  deriving DecidableEq, Repr

/-- The word at offset `off` of band `b`'s 16-word block (R42). -/
def bandReg (b off : Nat) : Option ConfigReg :=
  match off with
  | 0x0 => some (.ntaps b)
  | 0x1 => some (.wlen b)
  | 0x2 => some (.sens b)
  | 0x3 => some (.floor b)
  | 0x4 => some (.minDist b)
  | 0x8 => some (.sslp b)
  | 0x9 => some (.pos b)
  | 0xA => some (.bpm b)
  | 0xB => some (.thrLo b)
  | 0xC => some (.thrHi b)
  | 0xD => some (.dqlen b)
  | _ => none

/-- The address map of R42; none is an unmapped address (R47). -/
def configReg (P : Params) (addr : CfgAddr) : Option ConfigReg :=
  let a := addr.toNat
  if a = 0x0000 then some .status
  else if a = 0x0001 then some .cfgerr
  else if a = 0x0002 then some .fs
  else if a = 0x0003 then some .nbands
  else if 0x0100 ≤ a ∧ a < 0x0100 + 0x10 * P.nbMax then bandReg ((a - 0x0100) / 0x10) ((a - 0x0100) % 0x10)
  else if 0x1000 ≤ a ∧ (a - 0x1000) / 0x400 < P.nbMax ∧ (a - 0x1000) % 0x400 < P.ntMax then
    some (.coef ((a - 0x1000) / 0x400) ((a - 0x1000) % 0x400))
  else none

/-- The word address of a named word (R42). -/
def ConfigReg.addr : ConfigReg → Nat
  | .status => 0x0000
  | .cfgerr => 0x0001
  | .fs => 0x0002
  | .nbands => 0x0003
  | .ntaps b => 0x0100 + 0x10 * b + 0x0
  | .wlen b => 0x0100 + 0x10 * b + 0x1
  | .sens b => 0x0100 + 0x10 * b + 0x2
  | .floor b => 0x0100 + 0x10 * b + 0x3
  | .minDist b => 0x0100 + 0x10 * b + 0x4
  | .sslp b => 0x0100 + 0x10 * b + 0x8
  | .pos b => 0x0100 + 0x10 * b + 0x9
  | .bpm b => 0x0100 + 0x10 * b + 0xA
  | .thrLo b => 0x0100 + 0x10 * b + 0xB
  | .thrHi b => 0x0100 + 0x10 * b + 0xC
  | .dqlen b => 0x0100 + 0x10 * b + 0xD
  | .coef b k => 0x1000 + 0x400 * b + k

/-- The named word exists in this instance: its band slot and its tap number do (R42). -/
def ConfigReg.present (P : Params) : ConfigReg → Bool
  | .status | .cfgerr | .fs | .nbands => true
  | .ntaps b | .wlen b | .sens b | .floor b | .minDist b => decide (b < P.nbMax)
  | .sslp b | .pos b | .bpm b | .thrLo b | .thrHi b | .dqlen b => decide (b < P.nbMax)
  | .coef b k => decide (b < P.nbMax) && decide (k < P.ntMax)

/-- Access RW: written by CFGW in CONFIG (R42). The others are read-only (R48). -/
def ConfigReg.writable : ConfigReg → Bool
  | .fs | .nbands => true
  | .ntaps _ | .wlen _ | .sens _ | .floor _ | .minDist _ => true
  | .coef _ _ => true
  | .status | .cfgerr => false
  | .sslp _ | .pos _ | .bpm _ | .thrLo _ | .thrHi _ | .dqlen _ => false

/-- `CfgRead` of a named word (R42, R43, R49); it changes no state (R46). -/
def cfgRead (P : Params) (s : State) : ConfigReg → Word
  | .status => statusWord s
  | .cfgerr => cfgerrWord s
  | .fs => s.fs
  | .nbands => s.nbands
  | .ntaps b => (s.band b).ntaps
  | .wlen b => (s.band b).wlen
  | .sens b => (s.band b).sens
  | .floor b => (s.band b).floor
  | .minDist b => (s.band b).minDist
  | .sslp b => (s.band b).sslp
  | .pos b => (s.band b).pos
  | .bpm b => unsignedWord (s.band b).bpm
  | .thrLo b => thrLow (s.band b).thr
  | .thrHi b => thrHigh P (s.band b).thr
  | .dqlen b => unsignedWord (s.band b).dq.length
  | .coef b k => signedWord (coefAt P s.powerOn b (s.band b).coef k)

/-- `CfgWrite` of a named word (R46, R48, R49): one register or one coefficient word changes, nothing
else; a read-only word is not written. -/
def cfgWrite (P : Params) (s : State) (r : ConfigReg) (v : Word) : State :=
  match r with
  | .fs => { s with fs := v }
  | .nbands => { s with nbands := v }
  | .ntaps b => s.setBand b { s.band b with ntaps := v }
  | .wlen b => s.setBand b { s.band b with wlen := v }
  | .sens b => s.setBand b { s.band b with sens := v }
  | .floor b => s.setBand b { s.band b with floor := v }
  | .minDist b => s.setBand b { s.band b with minDist := v }
  | .coef b k => s.setBand b { s.band b with coef := coefWrite P (s.band b).coef k v }
  | .status | .cfgerr => s
  | .sslp _ | .pos _ | .bpm _ | .thrLo _ | .thrHi _ | .dqlen _ => s

/-- The word CFGW may write at an address: mapped and writable (R47, R48). -/
def writableReg (P : Params) (addr : CfgAddr) : Option ConfigReg :=
  (configReg P addr).filter ConfigReg.writable

end Sys2Proof.Machine
end

