-- ==== Sys2Proof/Machine/Control.lean ====
section
/-!
DEFINITION. The control commands NOP, CFGW, CFGR, INIT and STOP (44_control_ops R114 to R120). The
illegal-encoding check that comes before each is the decoder's (R60).
-/

namespace Sys2Proof.Machine

/-- NOP in an instance with parameters `P` (R114). -/
def nopWith (P : Params) (s : State) : State := respond P .ack s

/-- The meaning of NOP (R114); its operand fields are ignored (R58). -/
def execNop (_a : BitVec 16) (_d : Word) (s : State) : Host.Outcome State Fault Refusal :=
  .next (nopWith s.params s)

/-- CFGW (R115): BAD_STATE in RUN whatever the address, then BAD_ADDR, then the write. -/
def cfgwWith (P : Params) (addr : CfgAddr) (data : Word) (s : State) : State :=
  match s.mode with
  | .run => nak P .badState s
  | .config =>
    match writableReg P addr with
    | none => nak P .badAddr s
    | some r => respond P .ack (cfgWrite P s r data)

/-- The meaning of CFGW (R115). -/
def execCfgw (addr : CfgAddr) (data : Word) (s : State) : Host.Outcome State Fault Refusal :=
  .next (cfgwWith s.params addr data s)

/-- CFGR (R116): BAD_ADDR for an unmapped address, else the word; in both modes. -/
def cfgrWith (P : Params) (addr : CfgAddr) (s : State) : State :=
  match configReg P addr with
  | none => nak P .badAddr s
  | some r => respond P (.data (cfgRead P s r)) s

/-- The meaning of CFGR (R116); field `D` is ignored (R58). -/
def execCfgr (addr : CfgAddr) (_d : Word) (s : State) : Host.Outcome State Fault Refusal :=
  .next (cfgrWith s.params addr s)

/-- The checks of R118 on one band's registers, in order. -/
def validateBand (P : Params) (B : Band) : Option CfgCause :=
  if B.ntaps.toNat = 0 then some .ntapsZero
  else if P.ntMax < B.ntaps.toNat then some .ntapsCap
  else if B.wlen.toNat = 0 then some .wlenZero
  else if P.dqCap < B.wlen.toNat then some .wlenCap
  else if P.sensMax < B.sens.toNat then some .sensRange
  else if P.floorMax < B.floor.toNat then some .floorRange
  else none

/-- `validate()` (R118): the first failing check, in R126's order; none when the configuration is legal. -/
def validate (P : Params) (s : State) : Option ConfigError :=
  if s.fs.toNat = 0 ∨ P.fsMax < s.fs.toNat then some ⟨.fsRange, 0xFF⟩
  else if s.nbands.toNat = 0 ∨ P.nbMax < s.nbands.toNat then some ⟨.nbandsRange, 0xFF⟩
  else (List.range s.nbands.toNat).findSome? fun b =>
    (validateBand P (s.band b)).map fun cause => ⟨cause, BitVec.ofNat 8 b⟩

/-- `construct()` on one slot (R119): the runtime state afresh, configuration and coefficients kept. -/
def constructBand (P : Params) (B : Band) : Band :=
  { B with
    dl := []
    cur := 0
    dq := []
    sslp := BitVec.ofNat 32 P.cntMax
    pos := 0
    bpm := 0
    thr := 0 }

/-- A successful INIT's state changes (R117, R119): every slot constructed, `CFGERR` and `DQOVF` cleared,
`mode` RUN. -/
def construct (P : Params) (s : State) : State :=
  { s with
    cfgerr := 0
    dqovf := false
    bands := s.bands.map (constructBand P)
    mode := .run }

/-- INIT (R117). -/
def initWith (P : Params) (s : State) : State :=
  match s.mode with
  | .run => nak P .badState s
  | .config =>
    match validate P s with
    | some e => cfgError P e s
    | none => respond P .ack (construct P s)

/-- The meaning of INIT (R117); its operand fields are ignored (R58). -/
def execInit (_a : BitVec 16) (_d : Word) (s : State) : Host.Outcome State Fault Refusal :=
  .next (initWith s.params s)

/-- STOP (R120): `mode` only. -/
def stopWith (P : Params) (s : State) : State :=
  match s.mode with
  | .config => nak P .badState s
  | .run => respond P .ack { s with mode := .config }

/-- The meaning of STOP (R120); its operand fields are ignored (R58). -/
def execStop (_a : BitVec 16) (_d : Word) (s : State) : Host.Outcome State Fault Refusal :=
  .next (stopWith s.params s)

end Sys2Proof.Machine
end

