-- ==== Sys2Proof/Machine/Dispatch.lean ====
section
/-!
DEFINITION. The dispatch of a command to its meaning: one arm per row of spec/opcode_table.json.
-/

namespace Sys2Proof.Machine

/-- The effect of one command (R104, R114 to R120): one atomic state transition with one response
(R6, R56). -/
def exec (i : Instr) (s : State) : Host.Outcome State Fault Refusal :=
  match i with
  | .nop a d => Sys2Proof.Machine.execNop a d s
  | .cfgw addr data => Sys2Proof.Machine.execCfgw addr data s
  | .cfgr addr d => Sys2Proof.Machine.execCfgr addr d s
  | .init a d => Sys2Proof.Machine.execInit a d s
  | .sample x idx => Sys2Proof.Machine.execSample x idx s
  | .stop a d => Sys2Proof.Machine.execStop a d s

end Sys2Proof.Machine
end

