-- ==== Sys2Proof/Machine/HostPort.lean ====
section
/-!
DEFINITION. The command port at transaction level: how the block answers what the host does next
(00_scope R6, 30_encoding R55, R56, R60, 70 R140, R144, R152).
-/

namespace Sys2Proof.Machine

/-- The block's answer to one accepted command word: the command the decoder reads, or the rejection of
an illegal word (R60, R121). -/
def acceptWord (w : CmdWord) (s : State) : Host.Outcome State Fault Refusal :=
  match decode w with
  | .command i => exec i s
  | .illegal _ => .next (rejectIllegal s.params s)

/-- The answer to a command that a reset event cuts short after `taken` words of its response (R144). -/
def acceptWordCut (w : CmdWord) (taken : Nat) (s : State) : Host.Outcome State Fault Refusal :=
  match acceptWord w s with
  | .next t => .next (cutByReset s.params s t taken)
  | .fault r => .fault r
  | .refused r => .refused r

/-- The block answers the next thing the host does; while the host does nothing it waits, holding all
state (R138, R152; log 7). -/
def serveHost (s : State) : Host.Outcome State Fault Refusal :=
  match s.host with
  | [] => .next s
  | .command w :: rest => acceptWord w { s with host := rest }
  | .reset :: rest => .next (resetEvent s.params { s with host := rest })
  | .commandCutByReset w taken :: rest => acceptWordCut w taken { s with host := rest }

/-- The host presents the command word `w` next, before all it was going to do (log 6). -/
def presentWord (s : State) (w : CmdWord) : State := { s with host := .command w :: s.host }

end Sys2Proof.Machine
end

