-- ==== Sys2Proof/Machine/Step.lean ====
section
/-!
DEFINITION. One step of the machine.
-/

namespace Sys2Proof.Machine

/-- One step: the block answers the next thing the host does (R6). -/
def step (s : State) : Host.Outcome State Fault Refusal := serveHost s

/-- The host presents the opcode-table word `w` of `nbits` bits next (log 6). -/
def State.withFetchWord (s : State) (nbits w : Nat) : State := presentWord s (tableWord nbits w)

/-- The block with parameter record `P` as a machine (R7): its state after reset is that of the instance,
and `step` runs the instance of the state it is given (log 1). -/
def machineOf (P : Params) : Host.Core :=
  { State := State, Fault := Fault, Refusal := Refusal, step := step, reset := State.resetOf P }

end Sys2Proof.Machine
end

