-- ==== Sys2Proof/Machine/Assembler.lean ====
section
/-!
DEFINITION. The assembler of 30_encoding section 5: source commands and pseudo-instructions
(R69, R70), their ranges, the command words they stand for, and the text they are written in.
-/

namespace Sys2Proof.Machine

/-- An address operand: a number or a register name, which stands for its address (R69). -/
inductive AddrOperand where
  | number (n : Nat)
  | name (r : ConfigReg)
  deriving DecidableEq, Repr

/-- One source line: the six commands of R69 and the four pseudo-instructions of R70. -/
inductive Source where
  | nop
  | cfgw (addr : AddrOperand) (data : Int)
  | cfgr (addr : AddrOperand)
  | init
  | sample (x : Int) (idx : Nat)
  | stop
  | coef (b k : Nat) (c : Int)
  | taps (b : Nat) (cs : List Int)
  | rdthr (b : Nat)
  | burst (idx0 : Nat) (xs : List Int)
  deriving DecidableEq, Repr

/-- The address an operand stands for (R69). -/
def AddrOperand.value : AddrOperand → Nat
  | .number n => n
  | .name r => r.addr

/-- `addr` is `0 .. 0xFFFF` or names a register of the instance (R69). -/
def AddrOperand.inRange (P : Params) : AddrOperand → Bool
  | .number n => decide (n < 2 ^ 16)
  | .name r => r.present P

/-- Data fits 32 bits, unsigned or, written with a leading `-`, in two's complement. R69 takes
`data[31:0]` and states no range: that a number outside `-2^31 .. 2^32-1` is no well-formed operand is the
model's (DESIGN CHOICE, log 18). -/
def dataInRange (v : Int) : Bool := decide (-2 ^ 31 ≤ v) && decide (v < 2 ^ 32)

/-- `x` in `-32768 .. 32767` (R69). -/
def sampleInRange (x : Int) : Bool := decide (-32768 ≤ x) && decide (x ≤ 32767)

/-- `idx` in `0 .. 2^32-1` (R69). -/
def indexInRange (idx : Nat) : Bool := decide (idx < 2 ^ 32)

/-- Every operand of a source line is in the range R69 and R70 give it, data in the model's range
(`dataInRange`). An empty list of taps or of samples is well formed, which R70 leaves open (DESIGN CHOICE,
log 18). -/
def Source.wellFormed (P : Params) : Source → Bool
  | .nop | .init | .stop => true
  | .cfgw addr data => addr.inRange P && dataInRange data
  | .cfgr addr => addr.inRange P
  | .sample x idx => sampleInRange x && indexInRange idx
  | .coef b k c => (ConfigReg.coef b k).present P && dataInRange c
  | .taps b cs => decide (b < P.nbMax) && decide (cs.length ≤ P.ntMax) && cs.all dataInRange
  | .rdthr b => decide (b < P.nbMax)
  | .burst idx0 xs => indexInRange idx0 && xs.all sampleInRange

/-- `cfgw addr, data` (R69). -/
def asmCfgw (addr : Nat) (data : Int) : Instr := .cfgw (BitVec.ofNat 16 addr) (BitVec.ofInt 32 data)

/-- `cfgr addr` (R69). -/
def asmCfgr (addr : Nat) : Instr := .cfgr (BitVec.ofNat 16 addr) 0

/-- `sample x, idx` (R69). -/
def asmSample (x : Int) (idx : Nat) : Instr := .sample (BitVec.ofInt 16 x) (BitVec.ofNat 32 idx)

/-- The taps of `taps` from tap `k` on (R70). -/
def asmTaps (b k : Nat) : List Int → List Instr
  | [] => []
  | c :: cs => asmCfgw (ConfigReg.coef b k).addr c :: asmTaps b (k + 1) cs

/-- The samples of `burst` from index `idx` on, the index modulo `2^32` (R70). -/
def asmBurst (idx : Nat) : List Int → List Instr
  | [] => []
  | x :: xs => asmSample x (idx % 2 ^ 32) :: asmBurst (idx + 1) xs

/-- The commands a source line stands for; unused fields are written 0 (R58, R69, R70). With an empty list
`taps` writes the tap count 0 and `burst` gives no command (DESIGN CHOICE, log 18). -/
def assemble : Source → List Instr
  | .nop => [.nop 0 0]
  | .cfgw addr data => [asmCfgw addr.value data]
  | .cfgr addr => [asmCfgr addr.value]
  | .init => [.init 0 0]
  | .sample x idx => [asmSample x idx]
  | .stop => [.stop 0 0]
  | .coef b k c => [asmCfgw (ConfigReg.coef b k).addr c]
  | .taps b cs => asmCfgw (ConfigReg.ntaps b).addr cs.length :: asmTaps b 0 cs
  | .rdthr b => [asmCfgr (ConfigReg.thrLo b).addr, asmCfgr (ConfigReg.thrHi b).addr]
  | .burst idx0 xs => asmBurst idx0 xs

/-! ### The text of a line (R69), as a list of characters -/

/-- A decimal digit. -/
def decDigit (c : Char) : Option Nat :=
  if '0' ≤ c ∧ c ≤ '9' then some (c.toNat - '0'.toNat) else none

/-- A hexadecimal digit, either case (log 16). -/
def hexDigit (c : Char) : Option Nat :=
  if '0' ≤ c ∧ c ≤ '9' then some (c.toNat - '0'.toNat)
  else if 'a' ≤ c ∧ c ≤ 'f' then some (c.toNat - 'a'.toNat + 10)
  else if 'A' ≤ c ∧ c ≤ 'F' then some (c.toNat - 'A'.toNat + 10)
  else none

/-- A run of digits in a base, the value so far in `acc`. -/
def digits (base : Nat) (digit : Char → Option Nat) (acc : Nat) : List Char → Option Nat
  | [] => some acc
  | c :: cs => (digit c).bind fun d => digits base digit (acc * base + d) cs

/-- An unsigned number, decimal or `0x` hexadecimal, with at least one digit (R69). -/
def readNat : List Char → Option Nat
  | [] => none
  | '0' :: 'x' :: c :: cs => digits 16 hexDigit 0 (c :: cs)
  | c :: cs => digits 10 decDigit 0 (c :: cs)

/-- A number, decimal optionally with a leading `-`, or hexadecimal (R69). -/
def readInt : List Char → Option Int
  | [] => none
  | '-' :: c :: cs => (digits 10 decDigit 0 (c :: cs)).map fun n => -(n : Int)
  | c :: cs => (readNat (c :: cs)).map fun n => (n : Int)

/-- The characters with no blank at either end. -/
def trimBlanks (cs : List Char) : List Char :=
  ((cs.dropWhile (· == ' ')).reverse.dropWhile (· == ' ')).reverse

/-- The number of a bracketed suffix, from the text after its `[`. -/
def readIndex (part : List Char) : Option Nat :=
  match part.reverse with
  | ']' :: body => readNat body.reverse
  | _ => none

/-- A register name's letters and its bracketed numbers, `COEF[1][2]` as `COEF` and `1`, `2`. -/
def readName (cs : List Char) : Option (List Char × List Nat) :=
  match cs.splitOn '[' with
  | [] => none
  | letters :: parts => (parts.mapM readIndex).map fun ns => (letters, ns)

/-- The register names of R69 that carry no number. -/
def globalNames : List (List Char × ConfigReg) :=
  [ (['S', 'T', 'A', 'T', 'U', 'S'], .status),
    (['C', 'F', 'G', 'E', 'R', 'R'], .cfgerr),
    (['F', 'S'], .fs),
    (['N', 'B', 'A', 'N', 'D', 'S'], .nbands) ]

/-- The register names of R69 that carry a band number. -/
def bandNames (b : Nat) : List (List Char × ConfigReg) :=
  [ (['N', 'T', 'A', 'P', 'S'], .ntaps b),
    (['W', 'L', 'E', 'N'], .wlen b),
    (['S', 'E', 'N', 'S'], .sens b),
    (['F', 'L', 'O', 'O', 'R'], .floor b),
    (['M', 'I', 'N', 'D', 'I', 'S', 'T'], .minDist b),
    (['S', 'S', 'L', 'P'], .sslp b),
    (['P', 'O', 'S'], .pos b),
    (['B', 'P', 'M'], .bpm b),
    (['T', 'H', 'R', '_', 'L', 'O'], .thrLo b),
    (['T', 'H', 'R', '_', 'H', 'I'], .thrHi b),
    (['D', 'Q', 'L', 'E', 'N'], .dqlen b) ]

/-- A register name of R69. -/
def readReg (cs : List Char) : Option ConfigReg :=
  match readName cs with
  | some (letters, []) => globalNames.lookup letters
  | some (letters, [b]) => (bandNames b).lookup letters
  | some (letters, [b, k]) => if letters = ['C', 'O', 'E', 'F'] then some (.coef b k) else none
  | _ => none

/-- An address operand: a number or a register name (R69). -/
def readAddr (cs : List Char) : Option AddrOperand :=
  match readNat cs with
  | some n => some (.number n)
  | none => (readReg cs).map .name

/-- A mnemonic of R69 or R70 with its operands; `taps` and `burst` may have none after the first (DESIGN
CHOICE, log 18). -/
def readCommand (mnemonic : List Char) (operands : List (List Char)) : Option Source :=
  match mnemonic, operands with
  | ['n', 'o', 'p'], [] => some .nop
  | ['i', 'n', 'i', 't'], [] => some .init
  | ['s', 't', 'o', 'p'], [] => some .stop
  | ['c', 'f', 'g', 'w'], [a, d] => do return .cfgw (← readAddr a) (← readInt d)
  | ['c', 'f', 'g', 'r'], [a] => do return .cfgr (← readAddr a)
  | ['s', 'a', 'm', 'p', 'l', 'e'], [x, i] => do return .sample (← readInt x) (← readNat i)
  | ['c', 'o', 'e', 'f'], [b, k, c] => do return .coef (← readNat b) (← readNat k) (← readInt c)
  | ['t', 'a', 'p', 's'], b :: cs => do return .taps (← readNat b) (← cs.mapM readInt)
  | ['r', 'd', 't', 'h', 'r'], [b] => do return .rdthr (← readNat b)
  | ['b', 'u', 'r', 's', 't'], i :: xs => do return .burst (← readNat i) (← xs.mapM readInt)
  | _, _ => none

/-- One line: a command, then an optional comment from `#` (R69). The outer none is a line that is no
command of R69 or R70. R69 says "One command per line" and leaves open whether a line may hold none: that an
empty line, or one with a comment only, is accepted and stands for no command, the inner none, is the model's
(DESIGN CHOICE, log 16). -/
def readLine (line : List Char) : Option (Option Source) :=
  match trimBlanks (line.takeWhile (· != '#')) with
  | [] => some none
  | c :: cs =>
    let mnemonic := (c :: cs).takeWhile (· != ' ')
    match trimBlanks ((c :: cs).dropWhile (· != ' ')) with
    | [] => (readCommand mnemonic []).map some
    | rest => (readCommand mnemonic ((rest.splitOn ',').map trimBlanks)).map some

end Sys2Proof.Machine
end

