-- ==== Sys2Proof/Safety.lean ====
section
/-!
DEFINITION. What the spec promises of a run, in the terms the statements use: the widths and invariants
of the state (10_state R17 to R37), the obligations of the host (70 R145 to R149), runs of commands, and
the units run over a sequence of samples.
-/

namespace Sys2Proof.Machine

/-! ### Invariants of the state -/

/-- `v` fits two's complement of width `n` (00_scope section 5). -/
def FitsSigned (n : Nat) (v : Int) : Prop := -2 ^ (n - 1) ≤ v ∧ v < 2 ^ (n - 1)

/-- The written coefficient words are in canonical form, belong to tap slots, and fit `COEF_W` bits
(R27). -/
def CoefInv (P : Params) (m : Memory Int) : Prop :=
  Memory.wf m = true ∧ ∀ c ∈ m, c.1 < P.ntMax ∧ FitsSigned P.coefW c.2

/-- The delay line is in canonical form and holds only words `j < n` that are not 0 (R28). -/
def DelayInv (n : Nat) (m : Memory SampleWord) : Prop := delayWf m = true ∧ ∀ c ∈ m, c.1 < n

/-- Values strictly decrease from the old end to the new end (R30 (a)). -/
def StrictlyDecreasing (d : List DqEntry) : Prop := d.Pairwise fun older younger => younger.val < older.val

/-- The deque holds at most `DQ_CAP` entries of `TV_W` bits, strictly decreasing (R29, R30 (a)). -/
def DequeInv (P : Params) (d : List DqEntry) : Prop :=
  d.length ≤ P.dqCap ∧ StrictlyDecreasing d ∧ ∀ e ∈ d, FitsSigned P.tvW e.val

/-- Every element of a band slot is within the width the spec gives it (R27 to R29, R33, R34). -/
def BandInv (P : Params) (B : Band) : Prop :=
  CoefInv P B.coef ∧ DelayInv P.ntMax B.dl ∧ B.cur < P.ntMax ∧ DequeInv P B.dq
    ∧ B.thr < 2 ^ P.thrW ∧ B.bpm < 2 ^ P.bpmW

/-- The legal ranges of the registers of a configured band (R22 to R25). -/
def BandLegal (P : Params) (B : Band) : Prop :=
  1 ≤ B.ntaps.toNat ∧ B.ntaps.toNat ≤ P.ntMax ∧ 1 ≤ B.wlen.toNat ∧ B.wlen.toNat ≤ P.dqCap
    ∧ B.sens.toNat ≤ P.sensMax ∧ B.floor.toNat ≤ P.floorMax

/-- The legal ranges of the configuration (R20 to R25): what INIT accepts. -/
def ConfigLegal (P : Params) (s : State) : Prop :=
  1 ≤ s.fs.toNat ∧ s.fs.toNat ≤ P.fsMax ∧ 1 ≤ s.nbands.toNat ∧ s.nbands.toNat ≤ P.nbMax
    ∧ ∀ b, b < s.nbands.toNat → BandLegal P (s.band b)

/-- The cursor and the delay line stay inside the buffer of `NTAPS[b]` words (R28). -/
def CursorInv (B : Band) : Prop := B.cur < B.tapCount ∧ DelayInv B.tapCount B.dl

/-- What RUN guarantees: the configuration is the one INIT checked (R37, R53, R118), no configuration
error is recorded (R117, R19), and every configured band's cursor is inside its buffer (R28). -/
def RunInv (P : Params) (s : State) : Prop :=
  ConfigLegal P s ∧ s.cfgerr = 0 ∧ ∀ b, b < s.nbands.toNat → CursorInv (s.band b)

/-- `CFGERR[7:0]` is 0 or one of the causes of R125. -/
def CfgerrInv (s : State) : Prop := (s.cfgerr.extractLsb' 0 8).toNat ≤ 8

/-- The invariant of the block: the instance is legal (R8), every slot is within its widths, `CFGERR` is a
value of R125, and in RUN the guarantees of RUN hold. -/
def StateInv (s : State) : Prop :=
  s.params.legal = true ∧ (∀ b, b < Config.slots → BandInv s.params (s.band b)) ∧ CfgerrInv s
    ∧ (s.mode = .run → RunInv s.params s)

/-- With `now` the index of the last SAMPLE, every entry of the deque is younger than the window, and
entries get younger towards the new end (R30 (c), (d)). -/
def WindowInv (now : Index) (B : Band) : Prop :=
  (∀ e ∈ B.dq, age now e.idx < B.wlen.toNat)
    ∧ B.dq.Pairwise fun older younger => age now younger.idx < age now older.idx

/-! ### Obligations of the host -/

/-- H1 (R146, R148): every coefficient word of every configured band has been written. -/
def TapsWritten (s : State) : Prop :=
  ∀ b, b < s.nbands.toNat → ∀ k, k < (s.band b).tapCount → (Memory.read (s.band b).coef k).isSome = true

/-- H2 (R147): each SAMPLE carries the index of the one before it plus 1, modulo `2^32`. -/
def ConsecutiveIndices (idxs : List Index) : Prop := idxs.IsChain fun i j => j = i + 1

/-- The configuration writes of bring-up for one band (R145 steps 2 and 3, less the coefficient words),
and INIT (step 4). -/
def bringUpOneBand (fs ntaps wlen minDist sens floor : Word) : List Instr :=
  [ .cfgw 0x0002 fs, .cfgw 0x0003 1, .cfgw 0x0100 ntaps, .cfgw 0x0101 wlen, .cfgw 0x0104 minDist,
    .cfgw 0x0102 sens, .cfgw 0x0103 floor, .init 0 0 ]

/-- The checks of R118 on band `b`, in order: the condition that fails, and the error it reports. -/
def bandChecks (P : Params) (s : State) (b : Nat) : List (Bool × ConfigError) :=
  let B := s.band b
  [ (decide (B.ntaps.toNat = 0), ⟨.ntapsZero, BitVec.ofNat 8 b⟩),
    (decide (P.ntMax < B.ntaps.toNat), ⟨.ntapsCap, BitVec.ofNat 8 b⟩),
    (decide (B.wlen.toNat = 0), ⟨.wlenZero, BitVec.ofNat 8 b⟩),
    (decide (P.dqCap < B.wlen.toNat), ⟨.wlenCap, BitVec.ofNat 8 b⟩),
    (decide (P.sensMax < B.sens.toNat), ⟨.sensRange, BitVec.ofNat 8 b⟩),
    (decide (P.floorMax < B.floor.toNat), ⟨.floorRange, BitVec.ofNat 8 b⟩) ]

/-- All the checks of R118 as one list, in the order of R126. -/
def configChecks (P : Params) (s : State) : List (Bool × ConfigError) :=
  [ (decide (s.fs.toNat = 0 ∨ P.fsMax < s.fs.toNat), ⟨.fsRange, 0xFF⟩),
    (decide (s.nbands.toNat = 0 ∨ P.nbMax < s.nbands.toNat), ⟨.nbandsRange, 0xFF⟩) ]
    ++ (List.range s.nbands.toNat).flatMap (bandChecks P s)

/-! ### Runs of commands -/

/-- The architectural state, R15's tuple: what the host still does and has received is left out. -/
def State.arch (s : State) : State := { s with host := [], out := [] }

/-- The left fold of the per-command transitions over a sequence of command words (R51). -/
def runWords : List CmdWord → State → Host.Outcome State Fault Refusal
  | [], s => .next s
  | w :: ws, s =>
    match acceptWord w s with
    | .next t => runWords ws t
    | .fault r => .fault r
    | .refused r => .refused r

/-- The same over a sequence of commands. -/
def runInstrs : List Instr → State → Host.Outcome State Fault Refusal
  | [], s => .next s
  | i :: is, s =>
    match exec i s with
    | .next t => runInstrs is t
    | .fault r => .fault r
    | .refused r => .refused r

/-- A command word that changes no architectural state in any mode: NOP, CFGR, or an illegal word
(R112, R114, R116, R121). -/
def onlyObserves (w : CmdWord) : Bool :=
  match decode w with
  | .command (.nop _ _) => true
  | .command (.cfgr _ _) => true
  | .command _ => false
  | .illegal _ => true

/-! ### What one band does on one sample -/

/-- Band `b`'s pipeline in state `s` (R105). -/
def bandOutcome (P : Params) (x : SampleWord) (idx : Index) (s : State) (b : Nat) : BandResult :=
  bandPipeline P s.fs (coefAt P s.powerOn b (s.band b).coef) (s.band b) x idx

/-- Band `b` is configured and peaks on this sample. -/
def peaksOn (P : Params) (x : SampleWord) (idx : Index) (s : State) (b : Nat) : Bool :=
  decide (b < s.nbands.toNat) && (bandOutcome P x idx s b).peak

/-! ### The units over a sequence of samples -/

/-- `FIR_apply` over a sequence of samples. -/
def firRun (P : Params) (tap : Nat → Int) : Band → List SampleWord → List FirResult
  | _, [] => []
  | B, x :: xs => firApply P tap B x :: firRun P tap (firApply P tap B x).band xs

/-- `SWM_push` over a sequence of values with consecutive indices from `idx` on (R147). -/
def swmRun (P : Params) (w : Nat) : Index → List DqEntry → List Int → List SwmResult
  | _, _, [] => []
  | idx, d, v :: vs => swmPush P w d v idx :: swmRun P w (idx + 1) (swmPush P w d v idx).dq vs

/-- `PKD_step` over a sequence of filtered samples, each with its window maximum. -/
def pkdRun (P : Params) (fs : Word) : Band → List (Int × Int) → List PkdResult
  | _, [] => []
  | B, (y, wm) :: rest => pkdStep P fs B y wm :: pkdRun P fs (pkdStep P fs B y wm).band rest

/-- The last `w` values of the first `n + 1`: the window of the `n`-th push (R88). -/
def trailingWindow (w n : Nat) (vs : List Int) : List Int := (vs.take (n + 1)).drop (n + 1 - w)

/-- The `k`-th most recent sample at sample `n`, 0 before construction (R73, R77). -/
def pastSample (xs : List SampleWord) (n k : Nat) : Int :=
  if k ≤ n then sampleValue (xs.getD (n - k) 0) else 0

end Sys2Proof.Machine
end

