-- ==== Sys2Proof/Certificates/Slice0/Obligations.lean ====
section
/-!
DEFINITION. The statements about the model, for the provers. A statement about `exec` and `step` is about
the instance of the state, `s.params` (log 1), and so about every parameter record its premises admit, as is
one that takes `P : Params`.
The response words sent so far are the model's field `out` (log 8), which stands for the response channel.
-/

open Sys2Proof Sys2Proof.Machine

/-! ### Encoding (30_encoding R57 to R60, R69) -/

/-- Decoding an encoded instruction gives it back, with every operand at every value (R57 to R59). -/
def Obligations.DecodeInvertsEncode : Prop :=
  ∀ i : Instr, i.wellFormed = true → decode (encode i) = .command i

/-- No bit of a command word is dropped: a word that decodes is the encoding of what it decodes to (R57).
That the bits of an ignored field are kept as well is the model's choice (log 12); R58 only says that they
are accepted and have no effect. -/
def Obligations.EncodeInvertsDecode : Prop :=
  ∀ (w : CmdWord) (i : Instr), decode w = .command i → encode i = w

/-- R60: a word is illegal exactly when `OP` is in `0x6 .. 0xF` or `RSV` is not 0; it changes no state, is
answered with `nak(ILLEGAL)` in either mode, and every other word is one of the six commands. -/
def Obligations.IllegalWordsAreRejected : Prop :=
  ∀ (w : CmdWord) (s : State),
    ((6 ≤ (fieldOP w).toNat ∨ fieldRSV w ≠ 0) →
      (∃ why, decode w = .illegal why)
        ∧ acceptWord w s = .next { s with out := s.out ++ [⟨0xF0000001, true⟩] })
    ∧ (¬(6 ≤ (fieldOP w).toNat ∨ fieldRSV w ≠ 0) →
      ∃ i, decode w = .command i ∧ acceptWord w s = exec i s)

/-- R59: a word fits a row of the opcode map, `(w AND mask) = match`, exactly when it decodes to that
row's command. -/
def Obligations.OpcodeMapIsTheDecoder : Prop :=
  ∀ r ∈ opcodeMap, ∀ w : CmdWord,
    r.fits w = true ↔ ∃ i, decode w = .command i ∧ i.mnemonic = r.mnemonic

/-- R69: the command word of each of the six commands as a number. -/
def Obligations.CommandWordsAsNumbers : Prop :=
  ∀ (a : BitVec 16) (d : Word),
    (encode (.nop 0 0)).toNat = 0x0000000000000000
    ∧ (encode (.cfgw a d)).toNat = 0x1000000000000000 + a.toNat * 2 ^ 32 + d.toNat
    ∧ (encode (.cfgr a 0)).toNat = 0x2000000000000000 + a.toNat * 2 ^ 32
    ∧ (encode (.init 0 0)).toNat = 0x3000000000000000
    ∧ (encode (.sample a d)).toNat = 0x4000000000000000 + a.toNat * 2 ^ 32 + d.toNat
    ∧ (encode (.stop 0 0)).toNat = 0x5000000000000000

/-- The example words of R69, R114, R115, R117, R120 and 95_test_vectors decode to the commands the spec
says they are. -/
def Obligations.SpecExampleWordsDecode : Prop :=
  decode 0x0000123489ABCDEF = .command (.nop 0x1234 0x89ABCDEF)
    ∧ decode 0x100000020000AC44 = .command (.cfgw 0x0002 44100)
    ∧ decode 0x10001402FFFFC000 = .command (.cfgw 0x1402 0xFFFFC000)
    ∧ decode 0x2000012A00000000 = .command (.cfgr 0x012A 0)
    ∧ decode 0x3000000000000000 = .command (.init 0 0)
    ∧ decode 0x4000FFFF00000005 = .command (.sample 0xFFFF 5)
    ∧ decode 0x5000000000000000 = .command (.stop 0 0)

/-! ### Responses (30_encoding R56, R61 to R65) -/

/-- R65: the length of a response follows from its header alone, is at most 33 words, and `rsp_last` is 1
on the final word only. -/
def Obligations.ResponseLengthFollowsFromHeader : Prop :=
  ∀ (P : Params) (r : Response),
    (∀ mask events, r = .peaks mask events → events.length = popcount mask) →
    ∃ header rest, responseWords P r = header :: rest
      ∧ responseLength header = some (rest.length + 1)
      ∧ rest.length + 1 ≤ 33
      ∧ (markLast (header :: rest)).map RspWord.word = header :: rest
      ∧ (markLast (header :: rest)).map RspWord.last = List.replicate rest.length false ++ [true]

/-- R56, R62: a command that completes appends exactly one response to the response channel; a PEAKS
response has one event for each set bit of its mask. -/
def Obligations.EveryCommandGivesOneResponse : Prop :=
  ∀ (i : Instr) (s t : State), s.params.legal = true → exec i s = .next t →
    ∃ r, t.out = s.out ++ markLast (responseWords s.params r)
      ∧ ∀ mask events, r = .peaks mask events → events.length = popcount mask

/-! ### Pseudocode primitives (00_scope R11 to R14) -/

/-- R11: `floor_shr(v, n)` is the greatest integer not above `v / 2^n`, with R11's examples, and on a
two's complement pattern it is the arithmetic shift right. -/
def Obligations.FloorShiftIsFloorDivision : Prop :=
  (∀ (v : Int) (n : Nat), floorShr v n * 2 ^ n ≤ v ∧ ∀ q : Int, q * 2 ^ n ≤ v → q ≤ floorShr v n)
    ∧ (∀ (w : Nat) (p : BitVec w) (n : Nat), floorShr p.toInt n = (p.sshiftRight n).toInt)
    ∧ floorShr 32768 16 = 0 ∧ floorShr (-32768) 16 = -1 ∧ floorShr (-1) 16 = -1
    ∧ floorShr 98304 16 = 1 ∧ floorShr (-98304) 16 = -2

/-- R12: `rhu(n, d)` is the nearest integer to `n / d`, a tie going up, with R12's examples. -/
def Obligations.RoundHalfUpIsNearest : Prop :=
  (∀ n d : Nat, 1 ≤ d → 2 * (rhu n d * d) ≤ 2 * n + d ∧ 2 * n + d < 2 * (rhu n d * d) + 2 * d)
    ∧ rhu 2646000 4409 = 600 ∧ rhu 2646000 32 = 82688 ∧ rhu 24000 48000 = 1
    ∧ rhu 23000 48000 = 0 ∧ rhu 0 7 = 0

/-- R13: `sat_inc` stops at `CNT_MAX`, `wrap_inc` wraps to 0 after `2^POS_W - 1`, for every legal
parameter record. -/
def Obligations.CounterIncrements : Prop :=
  ∀ (P : Params) (v : Word), P.legal = true →
    (satInc P v).toNat = min (v.toNat + 1) P.cntMax
    ∧ (wrapInc P v).toNat = (v.toNat + 1) % 2 ^ P.posW

/-- R14: `age` is the difference modulo `2^IDX_W`, and the plain difference when the index has not
wrapped. -/
def Obligations.AgeIsDifferenceModulo : Prop :=
  ∀ (P : Params) (idx eidx : Index), P.legal = true →
    (age idx eidx : Int) = ((idx.toNat : Int) - eidx.toNat) % 2 ^ P.idxW
    ∧ (eidx.toNat ≤ idx.toNat → age idx eidx = idx.toNat - eidx.toNat)

/-! ### Unit FIR (40_fir_filter) -/

/-- R73 with R77 and R78: from construction, the `n`-th call of `FIR_apply` returns the convolution of
the taps with the samples so far, zeros standing for the samples before construction, rounded down; the
cursor is the number of calls modulo the tap count. -/
def Obligations.FirComputesTheConvolution : Prop :=
  ∀ (P : Params) (tap : Nat → Int) (B : Band) (xs : List SampleWord) (n : Nat) (r : FirResult),
    1 ≤ B.tapCount → B.dl = [] → B.cur = 0 → (firRun P tap B xs)[n]? = some r →
    r.y = floorShr (∑ k ∈ Finset.range B.tapCount, tap k * pastSample xs n k) P.coefFrac
    ∧ r.band.cur = (n + 1) % B.tapCount

/-- R74 and R76: for every legal parameter record the accumulator stays within `2^(ACC_W-2)` and the
filtered sample within `2^(Y_W-2)`. -/
def Obligations.FirAccumulatorCannotOverflow : Prop :=
  ∀ (P : Params) (tap : Nat → Int) (B : Band) (x : SampleWord),
    P.legal = true → 1 ≤ B.tapCount → B.tapCount ≤ P.ntMax →
    (∀ k, k < B.tapCount → FitsSigned P.coefW (tap k)) →
    |firAcc tap B| ≤ 2 ^ (P.accW - 2) ∧ |(firApply P tap B x).y| ≤ 2 ^ (P.yW - 2)

/-- R71, R72, R78, in one call from any state: `FIR_apply` writes one word of the delay line and the cursor,
nothing else; the filtered sample is the sum of the taps times the delay-line words, newest first, after the
write, rounded down; the cursor stays inside the buffer. -/
def Obligations.FirWritesOneDelayWord : Prop :=
  ∀ (P : Params) (tap : Nat → Int) (B : Band) (x : SampleWord) (n : Nat),
    CursorInv B → B.tapCount ≤ n →
    let B' := (firApply P tap B x).band
    B' = { B with dl := B'.dl, cur := (B.cur + 1) % B.tapCount }
    ∧ (firApply P tap B x).y = floorShr
        (∑ k ∈ Finset.range B.tapCount,
          tap k * sampleValue (delayAt B'.dl ((B.cur + B.tapCount - k) % B.tapCount))) P.coefFrac
    ∧ delayAt B'.dl B.cur = x
    ∧ (∀ j, j ≠ B.cur → delayAt B'.dl j = delayAt B.dl j)
    ∧ CursorInv B' ∧ DelayInv n B'.dl

/-! ### Unit SWM (41_sliding_max) -/

/-- R88: with consecutive indices from construction, the `n`-th push returns the maximum of the last
`min(W, n+1)` values, for every legal parameter record and every window length it allows. -/
def Obligations.PushReturnsTheWindowMaximum : Prop :=
  ∀ (P : Params) (w : Nat) (idx0 : Index) (vs : List Int) (n : Nat) (r : SwmResult),
    P.legal = true → 1 ≤ w → w ≤ P.dqCap → (swmRun P w idx0 [] vs)[n]? = some r →
    r.wm ∈ trailingWindow w n vs ∧ ∀ v ∈ trailingWindow w n vs, v ≤ r.wm

/-- R89: with consecutive indices from construction, the deque never holds more than `W` entries and the
capacity guard never fires. -/
def Obligations.DequeStaysWithinTheWindow : Prop :=
  ∀ (P : Params) (w : Nat) (idx0 : Index) (vs : List Int), P.legal = true → 1 ≤ w → w ≤ P.dqCap →
    ∀ r ∈ swmRun P w idx0 [] vs, r.dq.length ≤ w ∧ r.guardFired = false

/-- R30 (a), (b), R86: for any index, a push keeps the values strictly decreasing and leaves the pushed
pair at the new end; its result is the old-end value, the largest of all. -/
def Obligations.PushKeepsValuesDecreasing : Prop :=
  ∀ (P : Params) (w : Nat) (d : List DqEntry) (v : Int) (idx : Index), StrictlyDecreasing d →
    StrictlyDecreasing (swmPush P w d v idx).dq
    ∧ (swmPush P w d v idx).dq.getLast? = some ⟨v, idx⟩
    ∧ (swmPush P w d v idx).dq.head?.map DqEntry.val = some (swmPush P w d v idx).wm
    ∧ ∀ e ∈ (swmPush P w d v idx).dq, e.val ≤ (swmPush P w d v idx).wm

/-- R85: the capacity guard fires exactly when steps 1 and 2 leave a full deque; then the old-end entry
is discarded; the deque never outgrows `DQ_CAP`. -/
def Obligations.CapacityGuardDropsTheOldest : Prop :=
  ∀ (P : Params) (w : Nat) (d : List DqEntry) (v : Int) (idx : Index),
    let r := swmPush P w d v idx
    let kept := evict w v idx d
    (r.guardFired = true ↔ kept.length = P.dqCap)
    ∧ (kept.length = P.dqCap → r.dq = kept.drop 1 ++ [⟨v, idx⟩])
    ∧ (kept.length ≠ P.dqCap → r.dq = kept ++ [⟨v, idx⟩])
    ∧ (1 ≤ P.dqCap → d.length ≤ P.dqCap → r.dq.length ≤ P.dqCap)

/-- R83, R84: on a deque whose values decrease, eviction removes the stale entries at the old end up to the
first fresh one, and of the rest exactly those whose value is `<=` the incoming value. -/
def Obligations.EvictionRemovesStaleAndDominated : Prop :=
  ∀ (w : Nat) (d : List DqEntry) (v : Int) (idx : Index), StrictlyDecreasing d →
    ∃ stale fresh, d = stale ++ fresh
      ∧ (∀ e ∈ stale, w ≤ age idx e.idx)
      ∧ (∀ e, fresh.head? = some e → age idx e.idx < w)
      ∧ evict w v idx d = fresh.filter fun e => decide (v < e.val)

/-! ### Unit PKD (42_peak_detector) -/

/-- R92: the whole step. The threshold is the exact maximum over the integers; a peak needs `over` and
`deb`; the two paths write what R96 and R97 say and nothing else. -/
def Obligations.PeakStepFollowsTheFiveSteps : Prop :=
  ∀ (P : Params) (fs : Word) (B : Band) (y wm : Int),
    let r := pkdStep P fs B y wm
    let thr : Int := max (wm * B.sens.toNat) (B.floor.toNat * 2 ^ P.sensFrac)
    (r.band.thr : Int) = thr
    ∧ (r.peak = true ↔ y * 2 ^ P.sensFrac ≥ thr ∧ B.sslp.toNat > B.minDist.toNat)
    ∧ (r.peak = true →
        r.band = { B with thr := r.band.thr, bpm := rhu (60 * fs.toNat) B.sslp.toNat, sslp := 0 })
    ∧ (r.peak = false →
        r.band = { B with thr := r.band.thr, pos := wrapInc P B.pos, sslp := satInc P B.sslp })

/-- R93: for every legal parameter record and legal configuration the threshold is at least the floor and
fits `THR_W` bits. -/
def Obligations.ThresholdFitsItsWidth : Prop :=
  ∀ (P : Params) (B : Band) (wm : Int), P.legal = true → FitsSigned P.tvW wm →
    B.sens.toNat ≤ P.sensMax → B.floor.toNat ≤ P.floorMax →
    B.floor.toNat * 2 ^ P.sensFrac ≤ threshold P B wm ∧ threshold P B wm < 2 ^ P.thrW

/-- R94's consequences: a negative filtered sample is never over threshold, and `y = 0` is over threshold
exactly when the threshold is 0, that is when `FLOOR[b] = 0` and `wm * SENS[b] <= 0`. -/
def Obligations.NegativeSamplesNeverPeak : Prop :=
  ∀ (P : Params) (fs : Word) (B : Band) (y wm : Int),
    (y < 0 → overThreshold P y (threshold P B wm) = false ∧ (pkdStep P fs B y wm).peak = false)
    ∧ (overThreshold P 0 (threshold P B wm) = true ↔ threshold P B wm = 0)
    ∧ (threshold P B wm = 0 ↔ B.floor = 0 ∧ wm * B.sens.toNat ≤ 0)

/-- R101: the debounce machine's transitions. -/
def Obligations.DebounceMachineTransitions : Prop :=
  ∀ (P : Params) (fs : Word) (B : Band) (y wm : Int), P.legal = true →
    let r := pkdStep P fs B y wm
    let isOver := overThreshold P y (threshold P B wm)
    (debounceState B = .armed → isOver = true → r.peak = true ∧ debounceState r.band = .holdoff)
    ∧ (debounceState B = .armed → isOver = false → r.peak = false ∧ debounceState r.band = .armed)
    ∧ (debounceState B = .holdoff → r.peak = false
        ∧ (debounceState r.band = .holdoff ↔
            B.sslp.toNat + 1 ≤ B.minDist.toNat ∨ B.minDist.toNat = P.cntMax))

/-- R102 (a), (c): for two successive peaks of a band, at samples `i` and `j`, the positions differ by the
number of non-peak samples between them, which is at least `MINDIST + 1`, and the second peak's BPM
estimate is `rhu(60 * FS, j - i - 1)`. -/
def Obligations.SuccessivePeaksAreSpaced : Prop :=
  ∀ (P : Params) (fs : Word) (B : Band) (samples : List (Int × Int)) (i j : Nat) (ri rj : PkdResult),
    P.legal = true → i < j →
    (pkdRun P fs B samples)[i]? = some ri → (pkdRun P fs B samples)[j]? = some rj →
    ri.peak = true → rj.peak = true →
    (∀ k rk, i < k → k < j → (pkdRun P fs B samples)[k]? = some rk → rk.peak = false) →
    rj.band.pos - ri.band.pos = BitVec.ofNat 32 (j - i - 1)
    ∧ B.minDist.toNat + 1 ≤ j - i - 1
    ∧ (j - i - 1 < P.cntMax → rj.band.bpm = rhu (60 * fs.toNat) (j - i - 1))

/-- R98, R99: over a stretch without peaks `SSLP` counts up and stays at `CNT_MAX`, `POS` counts up modulo
`2^POS_W`, and `BPM` keeps its value. -/
def Obligations.CountersBetweenPeaks : Prop :=
  ∀ (P : Params) (fs : Word) (B : Band) (samples : List (Int × Int)) (n : Nat) (r : PkdResult),
    P.legal = true → (pkdRun P fs B samples)[n]? = some r →
    (∀ q ∈ (pkdRun P fs B samples).take (n + 1), q.peak = false) →
    r.band.sslp.toNat = min (B.sslp.toNat + (n + 1)) P.cntMax
    ∧ r.band.pos.toNat = (B.pos.toNat + (n + 1)) % 2 ^ P.posW
    ∧ r.band.bpm = B.bpm

/-- R100, for every legal parameter record: on a peak the divisor is not 0, the estimate is at most
`60 * FS` and fits `BPM_W` bits, and it is 0 when the counter is saturated and `60 * FS / CNT_MAX < 0.5`,
which every legal rate meets where `FS_W <= 25` (the reference instance among them; log 19). -/
def Obligations.BpmEstimateIsBounded : Prop :=
  ∀ (P : Params) (fs : Word) (B : Band) (y wm : Int), P.legal = true → fs.toNat ≤ P.fsMax →
    (pkdStep P fs B y wm).peak = true →
    1 ≤ B.sslp.toNat
    ∧ (pkdStep P fs B y wm).band.bpm ≤ 60 * fs.toNat
    ∧ (pkdStep P fs B y wm).band.bpm < 2 ^ P.bpmW
    ∧ (B.sslp.toNat = P.cntMax → 2 * (60 * fs.toNat) < P.cntMax → (pkdStep P fs B y wm).band.bpm = 0)
    ∧ (P.fsW ≤ 25 → 2 * (60 * fs.toNat) < P.cntMax)

/-! ### The SAMPLE command (43_band_bank) -/

/-- R104, R110 in CONFIG: SAMPLE is refused with BAD_STATE and changes nothing. -/
def Obligations.SampleIsRefusedInConfig : Prop :=
  ∀ (x : SampleWord) (idx : Index) (s : State), s.mode = .config →
    exec (.sample x idx) s = .next { s with out := s.out ++ [⟨0xF0000002, true⟩] }

/-- R104, R105, R107 to R111: in RUN with a configuration INIT accepts, SAMPLE completes. Every configured
band has run its pipeline on its own state, every other slot is untouched, `DQOVF` is set if a guard
fired, nothing else of the block changes, and the response is the PEAKS header with one bit for each band
that peaked, followed by their event records in ascending band order. -/
def Obligations.SampleRunsEachBandOnItsOwn : Prop :=
  ∀ (x : SampleWord) (idx : Index) (s : State),
    s.params.legal = true → s.mode = .run → ConfigLegal s.params s →
    ∃ (t : State) (mask : BitVec 8), exec (.sample x idx) s = .next t
      ∧ t = { s with bands := t.bands, dqovf := t.dqovf, out := t.out }
      ∧ (∀ b, b < Config.slots → t.band b =
          if b < s.nbands.toNat then (bandOutcome s.params x idx s b).band else s.band b)
      ∧ (t.dqovf = true ↔
          s.dqovf = true
            ∨ ∃ b, b < s.nbands.toNat ∧ (bandOutcome s.params x idx s b).guardFired = true)
      ∧ (∀ b, b < 8 → mask.getLsbD b = peaksOn s.params x idx s b)
      ∧ t.out = s.out ++ markLast
          ((0x20000000 + mask.zeroExtend 32) ::
            ((List.range 8).filter (peaksOn s.params x idx s)).flatMap fun b =>
              let pos := (bandOutcome s.params x idx s b).band.pos
              let ms := rhu (1000 * pos.toNat) s.fs.toNat
              [BitVec.ofNat 32 b, pos, BitVec.ofNat 32 ms, BitVec.ofNat 32 (ms / 2 ^ 32)])

/-- R105, R106, R36, R37, R78: a band's pipeline is FIR, then SWM on the absolute value (or the value, by the
parameter), then PKD on the signed value and the window maximum; its result depends on the taps below the
tap count only; it never writes the band's configuration or its coefficient memory. -/
def Obligations.BandPipelineRunsTheThreeUnits : Prop :=
  ∀ (P : Params) (fs : Word) (tap tap' : Nat → Int) (B : Band) (x : SampleWord) (idx : Index),
    (∀ k, k < B.tapCount → tap k = tap' k) →
    bandPipeline P fs tap B x idx = bandPipeline P fs tap' B x idx
    ∧ (let fir := firApply P tap B x
       let v := if P.trackAbs = true then |fir.y| else fir.y
       let push := swmPush P B.wlen.toNat B.dq v idx
       let pk := pkdStep P fs { B with dl := fir.band.dl, cur := fir.band.cur, dq := push.dq } fir.y push.wm
       bandPipeline P fs tap' B x idx = { band := pk.band, peak := pk.peak, guardFired := push.guardFired })
    ∧ let B' := (bandPipeline P fs tap B x idx).band
      B'.ntaps = B.ntaps ∧ B'.wlen = B.wlen ∧ B'.sens = B.sens ∧ B'.floor = B.floor
        ∧ B'.minDist = B.minDist ∧ B'.coef = B.coef

/-- R108, R63: for a legal rate the elapsed milliseconds fit `MS_W` bits, and the four words of the event
record are the band, the position and the two parts of the elapsed milliseconds. -/
def Obligations.EventRecordHoldsTheEvent : Prop :=
  ∀ (P : Params) (fs : Word) (b : Nat) (B : Band), P.legal = true → 1 ≤ fs.toNat → b < P.nbMax →
    (peakEvent fs b B).elapsedMs = rhu (1000 * B.pos.toNat) fs.toNat
    ∧ (peakEvent fs b B).elapsedMs < 2 ^ P.msW
    ∧ ∃ e0 e1 e2 e3 : Word, eventWords P (peakEvent fs b B) = [e0, e1, e2, e3]
      ∧ e0.toNat = b ∧ e1 = B.pos ∧ e3.toNat * 2 ^ 32 + e2.toNat = (peakEvent fs b B).elapsedMs

/-- R102 (b): on an all-zero stream with positive floors no band ever peaks: from a state of RUN whose
configured delay lines are zero, a zero sample answers an empty PEAKS response and leads to such a state
again. -/
def Obligations.AllZeroStreamNeverPeaks : Prop :=
  ∀ (idx : Index) (s : State), s.params.legal = true → s.mode = .run → ConfigLegal s.params s →
    (∀ b, b < s.nbands.toNat → (s.band b).dl = [] ∧ 1 ≤ (s.band b).floor.toNat) →
    ∃ t, exec (.sample 0 idx) s = .next t
      ∧ t.out = s.out ++ [⟨0x20000000, true⟩]
      ∧ t.mode = .run ∧ t.nbands = s.nbands ∧ t.params = s.params
      ∧ ConfigLegal t.params t
      ∧ ∀ b, b < t.nbands.toNat → (t.band b).dl = [] ∧ 1 ≤ (t.band b).floor.toNat

/-! ### Control commands and the configuration space (44_control_ops, 20_memory) -/

/-- R114: NOP answers ACK and changes nothing, in both modes, whatever its operand fields hold. -/
def Obligations.NopOnlyAcknowledges : Prop :=
  ∀ (a : BitVec 16) (d : Word) (s : State),
    decode (commandWord 0x0 0 a d) = .command (.nop a d)
    ∧ exec (.nop a d) s = .next { s with out := s.out ++ [⟨0x00000000, true⟩] }

/-- R115: CFGW, in its three cases. -/
def Obligations.CfgwWritesOrRefuses : Prop :=
  ∀ (addr : CfgAddr) (data : Word) (s : State),
    decode (commandWord 0x1 0 addr data) = .command (.cfgw addr data)
    ∧ (s.mode = .run →
        exec (.cfgw addr data) s = .next { s with out := s.out ++ [⟨0xF0000002, true⟩] })
    ∧ (s.mode = .config →
        (∀ r, configReg s.params addr = some r → r.writable = false) →
        exec (.cfgw addr data) s = .next { s with out := s.out ++ [⟨0xF0000003, true⟩] })
    ∧ (∀ r, s.mode = .config → configReg s.params addr = some r → r.writable = true →
        exec (.cfgw addr data) s =
          .next { cfgWrite s.params s r data with out := s.out ++ [⟨0x00000000, true⟩] })

/-- R116: CFGR, in its two cases, in both modes and whatever field `D` holds. -/
def Obligations.CfgrReadsOrRefuses : Prop :=
  ∀ (addr : CfgAddr) (d : Word) (s : State),
    decode (commandWord 0x2 0 addr d) = .command (.cfgr addr d)
    ∧ (configReg s.params addr = none →
        exec (.cfgr addr d) s = .next { s with out := s.out ++ [⟨0xF0000003, true⟩] })
    ∧ (∀ r, configReg s.params addr = some r →
        exec (.cfgr addr d) s =
          .next { s with
            out := s.out ++ [⟨0x10000000, false⟩, ⟨cfgRead s.params s r, true⟩] })

/-- R117, R119, R128: INIT, in its three cases: refused in RUN; a failed check leaves `CFGERR` and nothing
else; success clears `CFGERR` and `DQOVF`, constructs every slot and enters RUN. -/
def Obligations.InitConstructsOrRefuses : Prop :=
  ∀ (a : BitVec 16) (d : Word) (s : State),
    decode (commandWord 0x3 0 a d) = .command (.init a d)
    ∧ (s.mode = .run →
        exec (.init a d) s = .next { s with out := s.out ++ [⟨0xF0000002, true⟩] })
    ∧ (∀ e, s.mode = .config → validate s.params s = some e →
        exec (.init a d) s =
          .next { s with cfgerr := e.band ++ e.cause.code, out := s.out ++ [⟨0xF0000004, true⟩] })
    ∧ (s.mode = .config → validate s.params s = none →
        exec (.init a d) s =
          .next { s with
            mode := .run
            cfgerr := 0
            dqovf := false
            bands := s.bands.map fun B =>
              { B with
                dl := [], cur := 0, dq := [], sslp := BitVec.ofNat 32 s.params.cntMax, pos := 0, bpm := 0
                thr := 0 }
            out := s.out ++ [⟨0x00000000, true⟩] })

/-- R120: STOP, in its two cases. -/
def Obligations.StopLeavesRunOrRefuses : Prop :=
  ∀ (a : BitVec 16) (d : Word) (s : State),
    decode (commandWord 0x5 0 a d) = .command (.stop a d)
    ∧ (s.mode = .run →
        exec (.stop a d) s = .next { s with mode := .config, out := s.out ++ [⟨0x00000000, true⟩] })
    ∧ (s.mode = .config →
        exec (.stop a d) s = .next { s with out := s.out ++ [⟨0xF0000002, true⟩] })

/-- R118 against the legal ranges of R20 to R25: the checks pass exactly on a legal configuration. -/
def Obligations.ValidateAcceptsExactlyLegal : Prop :=
  ∀ (P : Params) (s : State), validate P s = none ↔ ConfigLegal P s

/-- R118, R126: INIT reports the first failing check in the order of R118. -/
def Obligations.ValidateReportsTheFirstFailure : Prop :=
  ∀ (P : Params) (s : State),
    validate P s = ((configChecks P s).find? fun c => c.1).map fun c => c.2

/-- R42: every named word of the instance is at the address R42 gives it, and every mapped address names
exactly one of them, so no address aliases another (R47). -/
def Obligations.AddressMapIsOneToOne : Prop :=
  ∀ (P : Params), P.legal = true →
    (∀ r : ConfigReg, r.present P = true → r.addr < 2 ^ 16 ∧ configReg P (BitVec.ofNat 16 r.addr) = some r)
    ∧ (∀ (addr : CfgAddr) (r : ConfigReg), configReg P addr = some r →
        r.present P = true ∧ r.addr = addr.toNat)

/-- R42, R47, R48 with the reference parameters: the mapped and the writable addresses as ranges. -/
def Obligations.ReferenceAddressRanges : Prop :=
  ∀ (addr : CfgAddr),
    ((configReg Params.reference addr).isSome = true ↔
      addr.toNat ≤ 0x0003
        ∨ (0x0100 ≤ addr.toNat ∧ addr.toNat ≤ 0x017F
            ∧ (addr.toNat % 16 ≤ 0x4 ∨ (0x8 ≤ addr.toNat % 16 ∧ addr.toNat % 16 ≤ 0xD)))
        ∨ (0x1000 ≤ addr.toNat ∧ addr.toNat ≤ 0x2FFF))
    ∧ ((writableReg Params.reference addr).isSome = true ↔
      addr.toNat = 0x0002 ∨ addr.toNat = 0x0003
        ∨ (0x0100 ≤ addr.toNat ∧ addr.toNat ≤ 0x017F ∧ addr.toNat % 16 ≤ 0x4)
        ∨ (0x1000 ≤ addr.toNat ∧ addr.toNat ≤ 0x2FFF))

/-- R46, R49: a write changes the word it names and no other: that word reads back as written, a
coefficient word as the sign extension of its low `COEF_W` bits, every other word reads as before, nothing
else of the block changes, and writing twice is writing once. -/
def Obligations.WriteChangesOneWord : Prop :=
  ∀ (P : Params) (s : State) (r : ConfigReg) (v : Word),
    P.legal = true → r.present P = true → r.writable = true →
    (∀ b, b < Config.slots → Memory.wf (s.band b).coef = true) →
    let s' := cfgWrite P s r v
    (cfgRead P s' r = match r with
      | .coef _ _ => signedWord (sextN P.coefW v.toNat)
      | _ => v)
    ∧ (∀ r', r'.present P = true → r' ≠ r → cfgRead P s' r' = cfgRead P s r')
    ∧ s' = { s with fs := s'.fs, nbands := s'.nbands, bands := s'.bands }
    ∧ (∀ b, b < Config.slots →
        (s'.band b).dl = (s.band b).dl ∧ (s'.band b).cur = (s.band b).cur
          ∧ (s'.band b).dq = (s.band b).dq)
    ∧ cfgWrite P s' r v = s'

/-- R49: a host that writes the two's complement form of an integer that fits `COEF_W` bits stores that
integer and reads the same word back. -/
def Obligations.CoefficientReadsBackSigned : Prop :=
  ∀ (P : Params) (c : Int), P.legal = true → FitsSigned P.coefW c →
    coefValue P (BitVec.ofInt 32 c) = c ∧ signedWord (coefValue P (BitVec.ofInt 32 c)) = BitVec.ofInt 32 c

/-- R42, R43: what a read of each register returns. A configuration register and the two counters are the
32-bit fields that the units read and write; `STATUS`, `CFGERR`, `BPM`, the two halves of `THR` and `DQLEN`
have the bit layouts of R43. -/
def Obligations.RegisterReadsAndLayouts : Prop :=
  ∀ (s : State) (b : Nat), s.params.legal = true → b < Config.slots → BandInv s.params (s.band b) →
    cfgRead s.params s .fs = s.fs ∧ cfgRead s.params s .nbands = s.nbands
    ∧ cfgRead s.params s (.ntaps b) = (s.band b).ntaps
    ∧ cfgRead s.params s (.wlen b) = (s.band b).wlen
    ∧ cfgRead s.params s (.sens b) = (s.band b).sens
    ∧ cfgRead s.params s (.floor b) = (s.band b).floor
    ∧ cfgRead s.params s (.minDist b) = (s.band b).minDist
    ∧ cfgRead s.params s (.sslp b) = (s.band b).sslp
    ∧ cfgRead s.params s (.pos b) = (s.band b).pos
    ∧ (cfgRead s.params s .status).toNat = (if s.mode = .run then 1 else 0) + (if s.dqovf then 2 else 0)
    ∧ (cfgRead s.params s .cfgerr).toNat = s.cfgerr.toNat
    ∧ (cfgRead s.params s (.bpm b)).toNat = (s.band b).bpm
    ∧ (cfgRead s.params s (.thrHi b)).toNat * 2 ^ 32 + (cfgRead s.params s (.thrLo b)).toNat
        = (s.band b).thr
    ∧ (cfgRead s.params s (.dqlen b)).toNat = (s.band b).dq.length

/-! ### The machine -/

/-- A step answers the next word of the host, which is taken off the host's list: a word that decodes runs
its command, an illegal word is answered with `nak(ILLEGAL)` and changes nothing else (R60, R121); a presented
table word is that next word; while the host does nothing the block waits (R6, R138). The host as a list, the
presented word and the waiting step are the model's choices (log 6, log 7). -/
def Obligations.StepRunsTheDecodedCommand : Prop :=
  ∀ (s : State) (w : CmdWord) (rest : List HostEvent),
    (s.host = .command w :: rest →
      step s = acceptWord w { s with host := rest }
      ∧ (∀ i, decode w = .command i → step s = exec i { s with host := rest })
      ∧ (∀ why, decode w = .illegal why →
          step s = .next { s with host := rest, out := s.out ++ [⟨0xF0000001, true⟩] }))
    ∧ (∀ n : Nat, step (s.withFetchWord 64 n) = acceptWord (BitVec.ofNat 64 n) s)
    ∧ (∀ (n : Nat) (i : Instr), decodeTableWord 64 n = some i → step (s.withFetchWord 64 n) = exec i s)
    ∧ (s.host = [] → step s = .next s)

/-- R141, R142: a reset event gives every element the value R40 lists and leaves every coefficient word as
it was. Of `SENS`, R40's value `SENS_ONE` is stated where it fits the register (log 17). R40 lists the delay
line as unspecified: that it is all 0 is the model's choice, allowed by R143 (log 5). That the reset event
leaves the model's own fields alone, the words sent (log 8), the instance (log 1), the power-on (log 3) and
the free choices taken (log 9), is the model's choice too. -/
def Obligations.ResetEventRestoresResetValues : Prop :=
  ∀ (s : State) (rest : List HostEvent), s.host = .reset :: rest →
    ∃ t, step s = .next t
      ∧ t = { s with mode := .config, dqovf := false, cfgerr := 0, fs := 0, nbands := 0,
                     bands := t.bands, host := rest }
      ∧ ∀ b, b < Config.slots →
        t.band b =
          { ntaps := 0, wlen := 0, sens := (t.band b).sens, floor := 1638, minDist := 0,
            coef := (s.band b).coef, dl := [], cur := 0, dq := [],
            thr := 0, sslp := BitVec.ofNat 32 s.params.cntMax, pos := 0, bpm := 0 }
        ∧ (s.params.sensFrac < 32 → (t.band b).sens.toNat = 2 ^ s.params.sensFrac)

/-- R40, R141: every legal instance right after reset, and an INIT straight after reset fails with FS_RANGE;
`State.reset` is the reference instance (log 1), where `SENS` is 0x1000. Of `SENS`, R40's value `SENS_ONE` is
stated where it fits the register (log 17). -/
def Obligations.ResetStateIsTheResetTable : Prop :=
  (∀ P : Params, P.legal = true →
    let s := State.resetOf P
    s.mode = .config ∧ s.dqovf = false ∧ s.cfgerr = 0 ∧ s.fs = 0 ∧ s.nbands = 0 ∧ s.params = P
    ∧ (∀ b, b < Config.slots →
        (s.band b).ntaps = 0 ∧ (s.band b).wlen = 0
          ∧ (P.sensFrac < 32 → (s.band b).sens.toNat = 2 ^ P.sensFrac)
          ∧ (s.band b).floor = 1638 ∧ (s.band b).minDist = 0 ∧ (s.band b).cur = 0
          ∧ (s.band b).dq = [] ∧ (s.band b).sslp = 0xFFFFFFFF
          ∧ (s.band b).pos = 0 ∧ (s.band b).bpm = 0 ∧ (s.band b).thr = 0)
    ∧ exec (.init 0 0) s = .next { s with cfgerr := 0xFF01, out := [⟨0xF0000004, true⟩] })
  ∧ State.reset = State.resetOf Params.reference
  ∧ ∀ b, b < Config.slots → (State.reset.band b).sens = 0x1000

/-- R144: a reset event that cuts a command short. The state is the reset state, each band's coefficient
memory is that of before or that of the completed command, and only the words transferred before the reset
have been sent. That the completed command's memory stands once the whole response was transferred is the
model's reading of R150 (log 15); the free choice before that is log 9; that the delay lines, which R40 lists
as unspecified, are all 0 is the model's choice, allowed by R143 (log 5). Of `SENS`, the value is R40's
`SENS_ONE` where that fits the register; in an instance with `SENS_FRAC = 32` it is the model's 0 (log 17).
That the host's list, the words sent, the instance and the power-on are the model's own fields, which a reset
event does not reset, is the model's choice too (log 6, log 8, log 1, log 3). -/
def Obligations.ResetCutsACommandShort : Prop :=
  ∀ (s : State) (w : CmdWord) (taken : Nat) (rest : List HostEvent),
    s.host = .commandCutByReset w taken :: rest → StateInv s →
    ∃ t u rsp, step s = .next t ∧ acceptWord w { s with host := rest } = .next u
      ∧ u.out = s.out ++ rsp ∧ t.out = s.out ++ rsp.take taken
      ∧ t.mode = .config ∧ t.dqovf = false ∧ t.cfgerr = 0 ∧ t.fs = 0 ∧ t.nbands = 0
      ∧ t.host = rest ∧ t.powerOn = s.powerOn ∧ t.params = s.params
      ∧ (∀ b, b < Config.slots →
          t.band b = { Band.reset s.params with coef := (t.band b).coef }
          ∧ ((t.band b).coef = (s.band b).coef ∨ (t.band b).coef = (u.band b).coef)
          ∧ (rsp.length ≤ taken → (t.band b).coef = (u.band b).coef))

/-- Every step keeps the invariant of the block, in every legal instance: the widths of R27 to R34, the
causes of R125, and in RUN the configuration INIT checked, a clear `CFGERR` and cursors inside their buffers
(R17, R19, R28, R37); and no step changes the instance (R39). The canonical forms of the word arrays, the
unbounded integers and the record in State are the model's (log 4, log 5, log 10, log 1). -/
def Obligations.StepKeepsTheInvariant : Prop :=
  ∀ s t : State, StateInv s → step s = .next t → StateInv t ∧ t.params = s.params

/-- Every legal instance meets the invariant after reset, and so does `State.reset`. -/
def Obligations.ResetMeetsTheInvariant : Prop :=
  (∀ P : Params, P.legal = true → StateInv (State.resetOf P)) ∧ StateInv State.reset

/-- R130, R139: nothing stops the block: in every state that meets the invariant a step answers a next
state. -/
def Obligations.StepAlwaysCompletes : Prop :=
  ∀ s : State, StateInv s → ∃ t, step s = .next t

/-- R17, R134: among commands only a successful INIT enters RUN and only STOP leaves it. -/
def Obligations.OnlyInitAndStopChangeMode : Prop :=
  ∀ (i : Instr) (s t : State), exec i s = .next t → t.mode ≠ s.mode →
    ((∃ a d, i = .init a d) ∧ s.mode = .config ∧ t.mode = .run ∧ ConfigLegal s.params s)
    ∨ ((∃ a d, i = .stop a d) ∧ s.mode = .run ∧ t.mode = .config)

/-- R37: in RUN no command changes a configuration register or the coefficient memory. -/
def Obligations.ConfigurationIsFrozenInRun : Prop :=
  ∀ (i : Instr) (s t : State), s.params.legal = true → s.mode = .run → exec i s = .next t →
    t.fs = s.fs ∧ t.nbands = s.nbands
    ∧ ∀ b, b < Config.slots →
      (t.band b).ntaps = (s.band b).ntaps ∧ (t.band b).wlen = (s.band b).wlen
        ∧ (t.band b).sens = (s.band b).sens ∧ (t.band b).floor = (s.band b).floor
        ∧ (t.band b).minDist = (s.band b).minDist ∧ (t.band b).coef = (s.band b).coef

/-- R27, R142: no command but CFGW, and no reset event, writes the coefficient memory. -/
def Obligations.OnlyCfgwWritesCoefficients : Prop :=
  (∀ (i : Instr) (s t : State), s.params.legal = true → exec i s = .next t →
      (∀ addr data, i ≠ .cfgw addr data) → ∀ b, b < Config.slots → (t.band b).coef = (s.band b).coef)
    ∧ ∀ (s : State) (b : Nat), b < Config.slots →
        ((resetEvent s.params s).band b).coef = (s.band b).coef

/-- R123: a command answered with a NAK changes no state, but for `CFGERR` when INIT fails. -/
def Obligations.RejectionChangesNothing : Prop :=
  ∀ (w : CmdWord) (s t : State) (code : NakCode), s.params.legal = true → acceptWord w s = .next t →
    t.out = s.out ++ markLast (responseWords s.params (.nak code)) →
    t = { s with cfgerr := t.cfgerr, out := t.out }
    ∧ (t.cfgerr ≠ s.cfgerr → code = .cfgInvalid ∧ ∃ a d, decode w = .command (.init a d))

/-- R18, R19: among commands, `CFGERR` is written by INIT only, and `DQOVF` is set by SAMPLE only and cleared
by INIT only (a reset event clears both: `ResetEventRestoresResetValues`). -/
def Obligations.StatusRegistersHaveTheirWriters : Prop :=
  ∀ (i : Instr) (s t : State), s.params.legal = true → exec i s = .next t →
    (t.cfgerr ≠ s.cfgerr → ∃ a d, i = .init a d)
    ∧ (s.dqovf = true → t.dqovf = false → ∃ a d, i = .init a d)
    ∧ (s.dqovf = false → t.dqovf = true → ∃ x idx, i = .sample x idx)

/-- R112, of the state: words that only observe (NOP, CFGR, illegal words) can be taken out of any sequence of
commands without changing the architectural state it leads to. It says nothing of the responses. -/
def Obligations.ObservingDoesNotDisturb : Prop :=
  ∀ (ws : List CmdWord) (s t : State), runWords ws s = .next t →
    ∃ t', runWords (ws.filter fun w => !onlyObserves w) s = .next t' ∧ t'.arch = t.arch

/-- R30 (c), (d), (f), R89, R18: while the host keeps the index obligation, a SAMPLE keeps every configured
band's deque inside its window, at most `W` entries long, and `DQOVF` at 0. -/
def Obligations.IndexObligationKeepsTheWindow : Prop :=
  ∀ (x : SampleWord) (now : Index) (s t : State),
    s.params.legal = true → s.mode = .run → ConfigLegal s.params s → s.dqovf = false →
    (∀ b, b < s.nbands.toNat → WindowInv now (s.band b)) →
    exec (.sample x (now + 1)) s = .next t →
    t.dqovf = false ∧ t.nbands = s.nbands
    ∧ ∀ b, b < s.nbands.toNat →
      WindowInv (now + 1) (t.band b) ∧ (t.band b).dq.length ≤ (t.band b).wlen.toNat

/-- R145 for one band: in CONFIG, the bring-up writes with legal values followed by INIT are all
acknowledged and lead to RUN with the written configuration and a freshly constructed band. -/
def Obligations.BringUpReachesRun : Prop :=
  ∀ (s : State) (fs ntaps wlen minDist sens floor : Word),
    s.params.legal = true → s.mode = .config →
    1 ≤ fs.toNat → fs.toNat ≤ s.params.fsMax →
    1 ≤ ntaps.toNat → ntaps.toNat ≤ s.params.ntMax →
    1 ≤ wlen.toNat → wlen.toNat ≤ s.params.dqCap →
    sens.toNat ≤ s.params.sensMax → floor.toNat ≤ s.params.floorMax →
    ∃ t, runInstrs (bringUpOneBand fs ntaps wlen minDist sens floor) s = .next t
      ∧ t.params = s.params ∧ t.mode = .run ∧ t.fs = fs ∧ t.nbands = 1 ∧ t.cfgerr = 0 ∧ t.dqovf = false
      ∧ t.out = s.out ++ List.replicate 8 ⟨0x00000000, true⟩
      ∧ t.band 0 =
          { ntaps := ntaps, wlen := wlen, sens := sens, floor := floor, minDist := minDist,
            coef := (s.band 0).coef, dl := [], cur := 0, dq := [],
            thr := 0, sslp := 0xFFFFFFFF, pos := 0, bpm := 0 }
      ∧ ∀ b k, b < Config.slots →
          coefAt t.params t.powerOn b (t.band b).coef k
            = coefAt s.params s.powerOn b (s.band b).coef k

/-! ### The assembler (30_encoding R69, R70) -/

/-- R69, R70: what each source line in range assembles to, every unused field 0. `nop`, `init` and `stop` are
their words; `cfgw` and `cfgr` carry the number or the address of the register they name, and `cfgw` its data,
a negative number as its two's complement pattern; `sample` carries its sample and index; `coef` writes the
coefficient word it names; `taps` writes the tap count and then one word a tap and no more; `rdthr` reads the
two threshold words; `burst` numbers its samples consecutively modulo `2^32`. The range of data and the empty
lists of `taps` and `burst` are the model's choices (log 18). Reading a line's text is no part of it. -/
def Obligations.AssemblerExpandsEachSourceLine : Prop :=
  ∀ (P : Params) (src : Source), P.legal = true → src.wellFormed P = true →
    (∀ i ∈ assemble src, i.canonical = true)
    ∧ (src = .nop → (assemble src).map encode = [0x0000000000000000])
    ∧ (src = .init → (assemble src).map encode = [0x3000000000000000])
    ∧ (src = .stop → (assemble src).map encode = [0x5000000000000000])
    ∧ (∀ addr data, src = .cfgw addr data →
        ∃ (a : CfgAddr) (d : Word), assemble src = [.cfgw a d]
          ∧ (∀ n, addr = .number n → a.toNat = n)
          ∧ (∀ r, addr = .name r → configReg P a = some r)
          ∧ (0 ≤ data → (d.toNat : Int) = data) ∧ (data < 0 → d.toInt = data))
    ∧ (∀ addr, src = .cfgr addr →
        ∃ a : CfgAddr, assemble src = [.cfgr a 0]
          ∧ (∀ n, addr = .number n → a.toNat = n)
          ∧ (∀ r, addr = .name r → configReg P a = some r))
    ∧ (∀ x idx, src = .sample x idx →
        ∃ w j, assemble src = [.sample w j] ∧ sampleValue w = x ∧ j.toNat = idx)
    ∧ (∀ b k c, src = .coef b k c →
        ∃ addr, assemble src = [.cfgw addr (BitVec.ofInt 32 c)]
          ∧ configReg P addr = some (.coef b k))
    ∧ (∀ b cs, src = .taps b cs →
        (assemble src).length = cs.length + 1
        ∧ ∃ addr, (assemble src).head? = some (.cfgw addr (BitVec.ofNat 32 cs.length))
          ∧ configReg P addr = some (.ntaps b)
          ∧ ∀ k c, cs[k]? = some c →
              ∃ a, (assemble src)[k + 1]? = some (.cfgw a (BitVec.ofInt 32 c))
                ∧ configReg P a = some (.coef b k))
    ∧ (∀ b, src = .rdthr b →
        ∃ lo hi, assemble src = [.cfgr lo 0, .cfgr hi 0]
          ∧ configReg P lo = some (.thrLo b) ∧ configReg P hi = some (.thrHi b))
    ∧ (∀ idx0 xs, src = .burst idx0 xs →
        (assemble src).length = xs.length
        ∧ ∀ k x, xs[k]? = some x →
            ∃ w, (assemble src)[k]? = some (Instr.sample w (BitVec.ofNat 32 (idx0 + k))) ∧ sampleValue w = x)
end

