-- ==== Sys2Proof/Laws/State.lean ====
section
/-!
SUPPORT. One lemma per field for every named update of the state and of a band slot, true by unfolding,
so that no proof unfolds a record update.
-/

namespace Sys2Proof.Machine

@[simp] theorem respond_mode (P : Params) (r : Response) (s : State) : (respond P r s).mode = s.mode := rfl

@[simp] theorem respond_dqovf (P : Params) (r : Response) (s : State) : (respond P r s).dqovf = s.dqovf := rfl

@[simp] theorem respond_cfgerr (P : Params) (r : Response) (s : State) : (respond P r s).cfgerr = s.cfgerr := rfl

@[simp] theorem respond_fs (P : Params) (r : Response) (s : State) : (respond P r s).fs = s.fs := rfl

@[simp] theorem respond_nbands (P : Params) (r : Response) (s : State) : (respond P r s).nbands = s.nbands := rfl

@[simp] theorem respond_bands (P : Params) (r : Response) (s : State) : (respond P r s).bands = s.bands := rfl

@[simp] theorem respond_params (P : Params) (r : Response) (s : State) : (respond P r s).params = s.params := rfl

@[simp] theorem respond_host (P : Params) (r : Response) (s : State) : (respond P r s).host = s.host := rfl

@[simp] theorem respond_out (P : Params) (r : Response) (s : State) : (respond P r s).out = s.out ++ markLast (responseWords P r) := rfl

@[simp] theorem respond_powerOn (P : Params) (r : Response) (s : State) : (respond P r s).powerOn = s.powerOn := rfl

@[simp] theorem respond_freeCount (P : Params) (r : Response) (s : State) : (respond P r s).freeCount = s.freeCount := rfl

@[simp] theorem nak_mode (P : Params) (c : NakCode) (s : State) : (nak P c s).mode = s.mode := rfl

@[simp] theorem nak_dqovf (P : Params) (c : NakCode) (s : State) : (nak P c s).dqovf = s.dqovf := rfl

@[simp] theorem nak_cfgerr (P : Params) (c : NakCode) (s : State) : (nak P c s).cfgerr = s.cfgerr := rfl

@[simp] theorem nak_fs (P : Params) (c : NakCode) (s : State) : (nak P c s).fs = s.fs := rfl

@[simp] theorem nak_nbands (P : Params) (c : NakCode) (s : State) : (nak P c s).nbands = s.nbands := rfl

@[simp] theorem nak_bands (P : Params) (c : NakCode) (s : State) : (nak P c s).bands = s.bands := rfl

@[simp] theorem nak_params (P : Params) (c : NakCode) (s : State) : (nak P c s).params = s.params := rfl

@[simp] theorem nak_host (P : Params) (c : NakCode) (s : State) : (nak P c s).host = s.host := rfl

@[simp] theorem nak_out (P : Params) (c : NakCode) (s : State) : (nak P c s).out = s.out ++ markLast (responseWords P (.nak c)) := rfl

@[simp] theorem nak_powerOn (P : Params) (c : NakCode) (s : State) : (nak P c s).powerOn = s.powerOn := rfl

@[simp] theorem nak_freeCount (P : Params) (c : NakCode) (s : State) : (nak P c s).freeCount = s.freeCount := rfl

@[simp] theorem cfgError_mode (P : Params) (e : ConfigError) (s : State) : (cfgError P e s).mode = s.mode := rfl

@[simp] theorem cfgError_dqovf (P : Params) (e : ConfigError) (s : State) : (cfgError P e s).dqovf = s.dqovf := rfl

@[simp] theorem cfgError_cfgerr (P : Params) (e : ConfigError) (s : State) : (cfgError P e s).cfgerr = e.word := rfl

@[simp] theorem cfgError_fs (P : Params) (e : ConfigError) (s : State) : (cfgError P e s).fs = s.fs := rfl

@[simp] theorem cfgError_nbands (P : Params) (e : ConfigError) (s : State) : (cfgError P e s).nbands = s.nbands := rfl

@[simp] theorem cfgError_bands (P : Params) (e : ConfigError) (s : State) : (cfgError P e s).bands = s.bands := rfl

@[simp] theorem cfgError_params (P : Params) (e : ConfigError) (s : State) : (cfgError P e s).params = s.params := rfl

@[simp] theorem cfgError_host (P : Params) (e : ConfigError) (s : State) : (cfgError P e s).host = s.host := rfl

@[simp] theorem cfgError_out (P : Params) (e : ConfigError) (s : State) : (cfgError P e s).out = s.out ++ markLast (responseWords P (.nak .cfgInvalid)) := rfl

@[simp] theorem cfgError_powerOn (P : Params) (e : ConfigError) (s : State) : (cfgError P e s).powerOn = s.powerOn := rfl

@[simp] theorem cfgError_freeCount (P : Params) (e : ConfigError) (s : State) : (cfgError P e s).freeCount = s.freeCount := rfl

@[simp] theorem setBand_mode (s : State) (b : Nat) (B : Band) : (s.setBand b B).mode = s.mode := rfl

@[simp] theorem setBand_dqovf (s : State) (b : Nat) (B : Band) : (s.setBand b B).dqovf = s.dqovf := rfl

@[simp] theorem setBand_cfgerr (s : State) (b : Nat) (B : Band) : (s.setBand b B).cfgerr = s.cfgerr := rfl

@[simp] theorem setBand_fs (s : State) (b : Nat) (B : Band) : (s.setBand b B).fs = s.fs := rfl

@[simp] theorem setBand_nbands (s : State) (b : Nat) (B : Band) : (s.setBand b B).nbands = s.nbands := rfl

@[simp] theorem setBand_bands (s : State) (b : Nat) (B : Band) : (s.setBand b B).bands = s.bands.setIfInBounds b B := rfl

@[simp] theorem setBand_params (s : State) (b : Nat) (B : Band) : (s.setBand b B).params = s.params := rfl

@[simp] theorem setBand_host (s : State) (b : Nat) (B : Band) : (s.setBand b B).host = s.host := rfl

@[simp] theorem setBand_out (s : State) (b : Nat) (B : Band) : (s.setBand b B).out = s.out := rfl

@[simp] theorem setBand_powerOn (s : State) (b : Nat) (B : Band) : (s.setBand b B).powerOn = s.powerOn := rfl

@[simp] theorem setBand_freeCount (s : State) (b : Nat) (B : Band) : (s.setBand b B).freeCount = s.freeCount := rfl

@[simp] theorem resetEvent_mode (P : Params) (s : State) : (resetEvent P s).mode = .config := rfl

@[simp] theorem resetEvent_dqovf (P : Params) (s : State) : (resetEvent P s).dqovf = false := rfl

@[simp] theorem resetEvent_cfgerr (P : Params) (s : State) : (resetEvent P s).cfgerr = 0 := rfl

@[simp] theorem resetEvent_fs (P : Params) (s : State) : (resetEvent P s).fs = 0 := rfl

@[simp] theorem resetEvent_nbands (P : Params) (s : State) : (resetEvent P s).nbands = 0 := rfl

@[simp] theorem resetEvent_bands (P : Params) (s : State) : (resetEvent P s).bands = s.bands.map (resetBand P) := rfl

@[simp] theorem resetEvent_params (P : Params) (s : State) : (resetEvent P s).params = s.params := rfl

@[simp] theorem resetEvent_host (P : Params) (s : State) : (resetEvent P s).host = s.host := rfl

@[simp] theorem resetEvent_out (P : Params) (s : State) : (resetEvent P s).out = s.out := rfl

@[simp] theorem resetEvent_powerOn (P : Params) (s : State) : (resetEvent P s).powerOn = s.powerOn := rfl

@[simp] theorem resetEvent_freeCount (P : Params) (s : State) : (resetEvent P s).freeCount = s.freeCount := rfl

@[simp] theorem construct_mode (P : Params) (s : State) : (construct P s).mode = .run := rfl

@[simp] theorem construct_dqovf (P : Params) (s : State) : (construct P s).dqovf = false := rfl

@[simp] theorem construct_cfgerr (P : Params) (s : State) : (construct P s).cfgerr = 0 := rfl

@[simp] theorem construct_fs (P : Params) (s : State) : (construct P s).fs = s.fs := rfl

@[simp] theorem construct_nbands (P : Params) (s : State) : (construct P s).nbands = s.nbands := rfl

@[simp] theorem construct_bands (P : Params) (s : State) : (construct P s).bands = s.bands.map (constructBand P) := rfl

@[simp] theorem construct_params (P : Params) (s : State) : (construct P s).params = s.params := rfl

@[simp] theorem construct_host (P : Params) (s : State) : (construct P s).host = s.host := rfl

@[simp] theorem construct_out (P : Params) (s : State) : (construct P s).out = s.out := rfl

@[simp] theorem construct_powerOn (P : Params) (s : State) : (construct P s).powerOn = s.powerOn := rfl

@[simp] theorem construct_freeCount (P : Params) (s : State) : (construct P s).freeCount = s.freeCount := rfl

@[simp] theorem resetBand_ntaps (P : Params) (B : Band) : (resetBand P B).ntaps = (Band.reset P).ntaps := rfl

@[simp] theorem resetBand_wlen (P : Params) (B : Band) : (resetBand P B).wlen = (Band.reset P).wlen := rfl

@[simp] theorem resetBand_sens (P : Params) (B : Band) : (resetBand P B).sens = (Band.reset P).sens := rfl

@[simp] theorem resetBand_floor (P : Params) (B : Band) : (resetBand P B).floor = (Band.reset P).floor := rfl

@[simp] theorem resetBand_minDist (P : Params) (B : Band) : (resetBand P B).minDist = (Band.reset P).minDist := rfl

@[simp] theorem resetBand_coef (P : Params) (B : Band) : (resetBand P B).coef = B.coef := rfl

@[simp] theorem resetBand_dl (P : Params) (B : Band) : (resetBand P B).dl = (Band.reset P).dl := rfl

@[simp] theorem resetBand_cur (P : Params) (B : Band) : (resetBand P B).cur = (Band.reset P).cur := rfl

@[simp] theorem resetBand_dq (P : Params) (B : Band) : (resetBand P B).dq = (Band.reset P).dq := rfl

@[simp] theorem resetBand_thr (P : Params) (B : Band) : (resetBand P B).thr = (Band.reset P).thr := rfl

@[simp] theorem resetBand_sslp (P : Params) (B : Band) : (resetBand P B).sslp = (Band.reset P).sslp := rfl

@[simp] theorem resetBand_pos (P : Params) (B : Band) : (resetBand P B).pos = (Band.reset P).pos := rfl

@[simp] theorem resetBand_bpm (P : Params) (B : Band) : (resetBand P B).bpm = (Band.reset P).bpm := rfl

@[simp] theorem constructBand_ntaps (P : Params) (B : Band) : (constructBand P B).ntaps = B.ntaps := rfl

@[simp] theorem constructBand_wlen (P : Params) (B : Band) : (constructBand P B).wlen = B.wlen := rfl

@[simp] theorem constructBand_sens (P : Params) (B : Band) : (constructBand P B).sens = B.sens := rfl

@[simp] theorem constructBand_floor (P : Params) (B : Band) : (constructBand P B).floor = B.floor := rfl

@[simp] theorem constructBand_minDist (P : Params) (B : Band) : (constructBand P B).minDist = B.minDist := rfl

@[simp] theorem constructBand_coef (P : Params) (B : Band) : (constructBand P B).coef = B.coef := rfl

@[simp] theorem constructBand_dl (P : Params) (B : Band) : (constructBand P B).dl = [] := rfl

@[simp] theorem constructBand_cur (P : Params) (B : Band) : (constructBand P B).cur = 0 := rfl

@[simp] theorem constructBand_dq (P : Params) (B : Band) : (constructBand P B).dq = [] := rfl

@[simp] theorem constructBand_thr (P : Params) (B : Band) : (constructBand P B).thr = 0 := rfl

@[simp] theorem constructBand_sslp (P : Params) (B : Band) : (constructBand P B).sslp = BitVec.ofNat 32 P.cntMax := rfl

@[simp] theorem constructBand_pos (P : Params) (B : Band) : (constructBand P B).pos = 0 := rfl

@[simp] theorem constructBand_bpm (P : Params) (B : Band) : (constructBand P B).bpm = 0 := rfl

@[simp] theorem firStore_ntaps (B : Band) (x : SampleWord) : (firStore B x).ntaps = B.ntaps := rfl

@[simp] theorem firStore_wlen (B : Band) (x : SampleWord) : (firStore B x).wlen = B.wlen := rfl

@[simp] theorem firStore_sens (B : Band) (x : SampleWord) : (firStore B x).sens = B.sens := rfl

@[simp] theorem firStore_floor (B : Band) (x : SampleWord) : (firStore B x).floor = B.floor := rfl

@[simp] theorem firStore_minDist (B : Band) (x : SampleWord) : (firStore B x).minDist = B.minDist := rfl

@[simp] theorem firStore_coef (B : Band) (x : SampleWord) : (firStore B x).coef = B.coef := rfl

@[simp] theorem firStore_dl (B : Band) (x : SampleWord) : (firStore B x).dl = delayWrite B.dl B.cur x := rfl

@[simp] theorem firStore_cur (B : Band) (x : SampleWord) : (firStore B x).cur = B.cur := rfl

@[simp] theorem firStore_dq (B : Band) (x : SampleWord) : (firStore B x).dq = B.dq := rfl

@[simp] theorem firStore_thr (B : Band) (x : SampleWord) : (firStore B x).thr = B.thr := rfl

@[simp] theorem firStore_sslp (B : Band) (x : SampleWord) : (firStore B x).sslp = B.sslp := rfl

@[simp] theorem firStore_pos (B : Band) (x : SampleWord) : (firStore B x).pos = B.pos := rfl

@[simp] theorem firStore_bpm (B : Band) (x : SampleWord) : (firStore B x).bpm = B.bpm := rfl

@[simp] theorem firAdvance_ntaps (B : Band) : (firAdvance B).ntaps = B.ntaps := rfl

@[simp] theorem firAdvance_wlen (B : Band) : (firAdvance B).wlen = B.wlen := rfl

@[simp] theorem firAdvance_sens (B : Band) : (firAdvance B).sens = B.sens := rfl

@[simp] theorem firAdvance_floor (B : Band) : (firAdvance B).floor = B.floor := rfl

@[simp] theorem firAdvance_minDist (B : Band) : (firAdvance B).minDist = B.minDist := rfl

@[simp] theorem firAdvance_coef (B : Band) : (firAdvance B).coef = B.coef := rfl

@[simp] theorem firAdvance_dl (B : Band) : (firAdvance B).dl = B.dl := rfl

@[simp] theorem firAdvance_cur (B : Band) : (firAdvance B).cur = (B.cur + 1) % B.tapCount := rfl

@[simp] theorem firAdvance_dq (B : Band) : (firAdvance B).dq = B.dq := rfl

@[simp] theorem firAdvance_thr (B : Band) : (firAdvance B).thr = B.thr := rfl

@[simp] theorem firAdvance_sslp (B : Band) : (firAdvance B).sslp = B.sslp := rfl

@[simp] theorem firAdvance_pos (B : Band) : (firAdvance B).pos = B.pos := rfl

@[simp] theorem firAdvance_bpm (B : Band) : (firAdvance B).bpm = B.bpm := rfl

@[simp] theorem peakPath_ntaps (fs : Word) (B : Band) : (peakPath fs B).ntaps = B.ntaps := rfl

@[simp] theorem peakPath_wlen (fs : Word) (B : Band) : (peakPath fs B).wlen = B.wlen := rfl

@[simp] theorem peakPath_sens (fs : Word) (B : Band) : (peakPath fs B).sens = B.sens := rfl

@[simp] theorem peakPath_floor (fs : Word) (B : Band) : (peakPath fs B).floor = B.floor := rfl

@[simp] theorem peakPath_minDist (fs : Word) (B : Band) : (peakPath fs B).minDist = B.minDist := rfl

@[simp] theorem peakPath_coef (fs : Word) (B : Band) : (peakPath fs B).coef = B.coef := rfl

@[simp] theorem peakPath_dl (fs : Word) (B : Band) : (peakPath fs B).dl = B.dl := rfl

@[simp] theorem peakPath_cur (fs : Word) (B : Band) : (peakPath fs B).cur = B.cur := rfl

@[simp] theorem peakPath_dq (fs : Word) (B : Band) : (peakPath fs B).dq = B.dq := rfl

@[simp] theorem peakPath_thr (fs : Word) (B : Band) : (peakPath fs B).thr = B.thr := rfl

@[simp] theorem peakPath_sslp (fs : Word) (B : Band) : (peakPath fs B).sslp = 0 := rfl

@[simp] theorem peakPath_pos (fs : Word) (B : Band) : (peakPath fs B).pos = B.pos := rfl

@[simp] theorem peakPath_bpm (fs : Word) (B : Band) : (peakPath fs B).bpm = bpmEstimate fs B.sslp := rfl

@[simp] theorem nonPeakPath_ntaps (P : Params) (B : Band) : (nonPeakPath P B).ntaps = B.ntaps := rfl

@[simp] theorem nonPeakPath_wlen (P : Params) (B : Band) : (nonPeakPath P B).wlen = B.wlen := rfl

@[simp] theorem nonPeakPath_sens (P : Params) (B : Band) : (nonPeakPath P B).sens = B.sens := rfl

@[simp] theorem nonPeakPath_floor (P : Params) (B : Band) : (nonPeakPath P B).floor = B.floor := rfl

@[simp] theorem nonPeakPath_minDist (P : Params) (B : Band) : (nonPeakPath P B).minDist = B.minDist := rfl

@[simp] theorem nonPeakPath_coef (P : Params) (B : Band) : (nonPeakPath P B).coef = B.coef := rfl

@[simp] theorem nonPeakPath_dl (P : Params) (B : Band) : (nonPeakPath P B).dl = B.dl := rfl

@[simp] theorem nonPeakPath_cur (P : Params) (B : Band) : (nonPeakPath P B).cur = B.cur := rfl

@[simp] theorem nonPeakPath_dq (P : Params) (B : Band) : (nonPeakPath P B).dq = B.dq := rfl

@[simp] theorem nonPeakPath_thr (P : Params) (B : Band) : (nonPeakPath P B).thr = B.thr := rfl

@[simp] theorem nonPeakPath_sslp (P : Params) (B : Band) : (nonPeakPath P B).sslp = satInc P B.sslp := rfl

@[simp] theorem nonPeakPath_pos (P : Params) (B : Band) : (nonPeakPath P B).pos = wrapInc P B.pos := rfl

@[simp] theorem nonPeakPath_bpm (P : Params) (B : Band) : (nonPeakPath P B).bpm = B.bpm := rfl

@[simp] theorem tapCount_firStore (B : Band) (x : SampleWord) : (firStore B x).tapCount = B.tapCount := rfl

@[simp] theorem tapCount_firAdvance (B : Band) : (firAdvance B).tapCount = B.tapCount := rfl

@[simp] theorem resetOf_mode (P : Params) : (State.resetOf P).mode = .config := rfl

@[simp] theorem resetOf_params (P : Params) : (State.resetOf P).params = P := rfl

@[simp] theorem resetOf_host (P : Params) : (State.resetOf P).host = [] := rfl

@[simp] theorem resetOf_out (P : Params) : (State.resetOf P).out = [] := rfl

@[simp] theorem resetOf_fs (P : Params) : (State.resetOf P).fs = 0 := rfl

@[simp] theorem resetOf_nbands (P : Params) : (State.resetOf P).nbands = 0 := rfl

@[simp] theorem resetOf_cfgerr (P : Params) : (State.resetOf P).cfgerr = 0 := rfl

@[simp] theorem resetOf_dqovf (P : Params) : (State.resetOf P).dqovf = false := rfl

end Sys2Proof.Machine
end

