-- ==== Sys2Proof/Laws/Bands.lean ====
section
/-!
SUPPORT. The laws of the band slots: what a slot reads after a replacement or after an update of all slots.
-/

namespace Sys2Proof.Machine

/-- A slot reads as the vector's element. -/
theorem band_eq_getElem (s : State) {b : Nat} (h : b < Config.slots) : s.band b = s.bands[b] := by
  simp [State.band, h]

/-- The slot just replaced. -/
theorem band_setBand_same (s : State) {b : Nat} (B : Band) (h : b < Config.slots) :
    (s.setBand b B).band b = B := by
  simp [State.band, h]

/-- Every other slot. -/
theorem band_setBand_other (s : State) {b c : Nat} (B : Band) (h : c ≠ b) :
    (s.setBand b B).band c = s.band c := by
  simp [State.band, Ne.symm h]

/-- Replacing a slot by what it holds changes nothing. -/
theorem setBand_band (s : State) (b : Nat) : s.setBand b (s.band b) = s := by
  by_cases h : b < Config.slots
  · have : s.bands.setIfInBounds b (s.band b) = s.bands := by
      ext i hi
      · rw [band_eq_getElem s h]
        by_cases hb : b = i
        · subst hb; simp
        · simp [hb]
    simp [State.setBand, this]
  · have : s.bands.setIfInBounds b (s.band b) = s.bands := by
      ext i hi
      have : b ≠ i := by omega
      simp [this]
    simp [State.setBand, this]

/-- Replacing a slot twice with the same band is replacing it once. -/
theorem setBand_setBand (s : State) (b : Nat) (B C : Band) :
    (s.setBand b B).setBand b C = s.setBand b C := by
  have : (s.bands.setIfInBounds b B).setIfInBounds b C = s.bands.setIfInBounds b C := by
    ext i hi
    by_cases hb : b = i <;> simp [hb]
  simp [State.setBand, this]

/-- A slot depends on the band slots alone. -/
theorem band_congr {s t : State} (h : t.bands = s.bands) (b : Nat) : t.band b = s.band b := by
  simp [State.band, h]

/-- Two states agree when their fields do; the slots one by one. -/
theorem State.ext_bands {s t : State} (h : t = { s with bands := t.bands })
    (hb : ∀ b, b < Config.slots → t.band b = s.band b) : t = s := by
  have : t.bands = s.bands := by
    ext i hi
    rw [← band_eq_getElem t hi, ← band_eq_getElem s hi, hb i hi]
  rw [h, this]

/-- A slot after an update of all slots. -/
theorem band_map (s t : State) (f : Band → Band) {b : Nat} (h : b < Config.slots)
    (ht : t.bands = s.bands.map f) : t.band b = f (s.band b) := by
  simp [State.band, ht, h]

@[simp] theorem band_respond (P : Params) (r : Response) (s : State) (b : Nat) :
    (respond P r s).band b = s.band b := rfl

@[simp] theorem band_nak (P : Params) (c : NakCode) (s : State) (b : Nat) :
    (nak P c s).band b = s.band b := rfl

@[simp] theorem band_cfgError (P : Params) (e : ConfigError) (s : State) (b : Nat) :
    (cfgError P e s).band b = s.band b := rfl

theorem band_resetEvent (P : Params) (s : State) {b : Nat} (h : b < Config.slots) :
    (resetEvent P s).band b = resetBand P (s.band b) := band_map s _ _ h rfl

theorem band_construct (P : Params) (s : State) {b : Nat} (h : b < Config.slots) :
    (construct P s).band b = constructBand P (s.band b) := band_map s _ _ h rfl

theorem band_resetOf (P : Params) {b : Nat} (h : b < Config.slots) :
    (State.resetOf P).band b = Band.reset P := by
  simp [State.band, State.resetOf, h]

theorem band_reset {b : Nat} (h : b < Config.slots) : State.reset.band b = Band.reset Config.params :=
  band_resetOf Config.params h

end Sys2Proof.Machine
end

