-- ==== Sys2Proof/Laws/Response.lean ====
section
/-!
SUPPORT. The laws of the response channel: the words of each response, and how a response ends.
-/

namespace Sys2Proof.Machine

@[simp] theorem markLast_nil : markLast [] = [] := rfl

@[simp] theorem markLast_singleton (w : Word) : markLast [w] = [⟨w, true⟩] := rfl

@[simp] theorem markLast_cons_cons (w v : Word) (rest : List Word) :
    markLast (w :: v :: rest) = ⟨w, false⟩ :: markLast (v :: rest) := rfl

/-- Marking the last word changes no word. -/
@[simp] theorem markLast_words (ws : List Word) : (markLast ws).map RspWord.word = ws := by
  induction ws with
  | nil => rfl
  | cons w rest ih => cases rest with
    | nil => rfl
    | cons v rest => simpa using ih

@[simp] theorem length_markLast (ws : List Word) : (markLast ws).length = ws.length := by
  rw [← List.length_map (f := RspWord.word), markLast_words]

/-- `rsp_last` is 1 on the final word and 0 on the others. -/
theorem markLast_lasts (w : Word) (rest : List Word) :
    (markLast (w :: rest)).map RspWord.last = List.replicate rest.length false ++ [true] := by
  induction rest generalizing w with
  | nil => rfl
  | cons v rest ih => simp [ih v, List.replicate_succ]

theorem responseWords_ack (P : Params) : markLast (responseWords P .ack) = [⟨0x00000000, true⟩] := rfl

theorem responseWords_data (P : Params) (v : Word) :
    markLast (responseWords P (.data v)) = [⟨0x10000000, false⟩, ⟨v, true⟩] := rfl

theorem responseWords_nak_illegal (P : Params) :
    markLast (responseWords P (.nak .illegal)) = [⟨0xF0000001, true⟩] := rfl

theorem responseWords_nak_badState (P : Params) :
    markLast (responseWords P (.nak .badState)) = [⟨0xF0000002, true⟩] := rfl

theorem responseWords_nak_badAddr (P : Params) :
    markLast (responseWords P (.nak .badAddr)) = [⟨0xF0000003, true⟩] := rfl

theorem responseWords_nak_cfgInvalid (P : Params) :
    markLast (responseWords P (.nak .cfgInvalid)) = [⟨0xF0000004, true⟩] := rfl

/-- Each event record has four words (R63). -/
@[simp] theorem length_eventWords (P : Params) (e : PeakEvent) : (eventWords P e).length = 4 := rfl

/-- The records of a PEAKS response have four words an event. -/
theorem length_flatMap_eventWords (P : Params) (es : List PeakEvent) :
    (es.flatMap (eventWords P)).length = 4 * es.length := by
  induction es with
  | nil => rfl
  | cons e es ih => simp [ih]; omega

end Sys2Proof.Machine
end

