-- ==== Sys2Proof/Laws/Control.lean ====
section
/-!
SUPPORT. Once for each control command: everything it can do.
-/

namespace Sys2Proof.Machine

/-- Everything CFGW can do (R115). -/
theorem cfgwWith_cases (P : Params) (addr : CfgAddr) (data : Word) (s : State) :
    (s.mode = .run ∧ cfgwWith P addr data s = nak P .badState s)
    ∨ (s.mode = .config ∧ writableReg P addr = none ∧ cfgwWith P addr data s = nak P .badAddr s)
    ∨ ∃ r, s.mode = .config ∧ writableReg P addr = some r
        ∧ cfgwWith P addr data s = respond P .ack (cfgWrite P s r data) := by
  unfold cfgwWith
  cases hm : s.mode with
  | run => exact .inl ⟨rfl, rfl⟩
  | config =>
    cases hr : writableReg P addr with
    | none => exact .inr (.inl ⟨rfl, rfl, rfl⟩)
    | some r => exact .inr (.inr ⟨r, rfl, rfl, rfl⟩)

/-- Everything CFGR can do (R116). -/
theorem cfgrWith_cases (P : Params) (addr : CfgAddr) (s : State) :
    (configReg P addr = none ∧ cfgrWith P addr s = nak P .badAddr s)
    ∨ ∃ r, configReg P addr = some r ∧ cfgrWith P addr s = respond P (.data (cfgRead P s r)) s := by
  unfold cfgrWith
  cases hr : configReg P addr with
  | none => exact .inl ⟨rfl, rfl⟩
  | some r => exact .inr ⟨r, rfl, rfl⟩

/-- Everything INIT can do (R117). -/
theorem initWith_cases (P : Params) (s : State) :
    (s.mode = .run ∧ initWith P s = nak P .badState s)
    ∨ (∃ e, s.mode = .config ∧ validate P s = some e ∧ initWith P s = cfgError P e s)
    ∨ (s.mode = .config ∧ validate P s = none ∧ initWith P s = respond P .ack (construct P s)) := by
  unfold initWith
  cases hm : s.mode with
  | run => exact .inl ⟨rfl, rfl⟩
  | config =>
    cases hv : validate P s with
    | some e => exact .inr (.inl ⟨e, rfl, rfl, rfl⟩)
    | none => exact .inr (.inr ⟨rfl, rfl, rfl⟩)

/-- Everything STOP can do (R120). -/
theorem stopWith_cases (P : Params) (s : State) :
    (s.mode = .config ∧ stopWith P s = nak P .badState s)
    ∨ (s.mode = .run ∧ stopWith P s = respond P .ack { s with mode := .config }) := by
  unfold stopWith
  cases hm : s.mode with
  | config => exact .inl ⟨rfl, rfl⟩
  | run => exact .inr ⟨rfl, rfl⟩

/-- A writable address is a mapped address of a writable word (R47, R48). -/
theorem writableReg_eq_some {P : Params} {addr : CfgAddr} {r : ConfigReg} :
    writableReg P addr = some r ↔ configReg P addr = some r ∧ r.writable = true := by
  simp [writableReg, Option.filter_eq_some_iff]

/-- Everything a write to a named word can do: the two global registers, one band slot's registers or
coefficient memory, or nothing (R46, R48). -/
theorem cfgWrite_cases (P : Params) (s : State) (r : ConfigReg) (v : Word) :
    cfgWrite P s r v = { s with fs := v } ∨ cfgWrite P s r v = { s with nbands := v }
    ∨ (∃ b n w se f m c, cfgWrite P s r v = s.setBand b
        { s.band b with ntaps := n, wlen := w, sens := se, floor := f, minDist := m, coef := c })
    ∨ cfgWrite P s r v = s := by
  cases r
  case fs => exact .inl rfl
  case nbands => exact .inr (.inl rfl)
  case ntaps b => exact .inr (.inr (.inl ⟨b, v, _, _, _, _, _, rfl⟩))
  case wlen b => exact .inr (.inr (.inl ⟨b, _, v, _, _, _, _, rfl⟩))
  case sens b => exact .inr (.inr (.inl ⟨b, _, _, v, _, _, _, rfl⟩))
  case floor b => exact .inr (.inr (.inl ⟨b, _, _, _, v, _, _, rfl⟩))
  case minDist b => exact .inr (.inr (.inl ⟨b, _, _, _, _, v, _, rfl⟩))
  case coef b k => exact .inr (.inr (.inl ⟨b, _, _, _, _, _, coefWrite P (s.band b).coef k v, rfl⟩))
  all_goals exact .inr (.inr (.inr rfl))

/-- A write to a named word leaves the control state, the host and the responses alone (R46). -/
theorem cfgWrite_frame (P : Params) (s : State) (r : ConfigReg) (v : Word) :
    ∃ fs nbands bands, cfgWrite P s r v = { s with fs := fs, nbands := nbands, bands := bands } := by
  rcases cfgWrite_cases P s r v with h | h | ⟨b, n, w, se, f, m, c, h⟩ | h
  · exact ⟨v, _, _, h⟩
  · exact ⟨_, v, _, h⟩
  · exact ⟨_, _, _, h⟩
  · exact ⟨_, _, _, h⟩

/-- A write to a named word leaves the instance alone. -/
@[simp] theorem cfgWrite_params (P : Params) (s : State) (r : ConfigReg) (v : Word) :
    (cfgWrite P s r v).params = s.params := by
  obtain ⟨fs, nbands, bands, h⟩ := cfgWrite_frame P s r v
  rw [h]

/-- The checks on one band pass exactly when its registers are in their ranges, as numbers (R118). -/
theorem validateBand_none_iff (P : Params) (B : Band) :
    validateBand P B = none ↔
      B.ntaps.toNat ≠ 0 ∧ B.ntaps.toNat ≤ P.ntMax ∧ B.wlen.toNat ≠ 0 ∧ B.wlen.toNat ≤ P.dqCap
        ∧ B.sens.toNat ≤ P.sensMax ∧ B.floor.toNat ≤ P.floorMax := by
  unfold validateBand
  repeat' split
  all_goals simp_all

end Sys2Proof.Machine
end

