-- ==== Sys2Proof/Laws/Memory.lean ====
section
/-!
SUPPORT. The laws of the word arrays: a read after a write, every other word left alone, and the
canonical form kept by every operation.
-/

namespace Sys2Proof.Machine

variable {α : Type}

@[simp] theorem Memory.read_nil (k : Nat) : Memory.read ([] : Memory α) k = none := rfl

/-- A read after a write of the same word gives the value written. -/
@[simp] theorem Memory.read_write_same (m : Memory α) (k : Nat) (v : α) :
    Memory.read (Memory.write m k v) k = some v := by
  induction m with
  | nil => simp [Memory.write, Memory.read]
  | cons c rest ih =>
    obtain ⟨j, u⟩ := c
    simp only [Memory.write]
    split
    · simp [Memory.read]
    · split
      · simp [Memory.read]
      · simp [Memory.read, *]

/-- A write leaves every other word alone. -/
theorem Memory.read_write_other (m : Memory α) {j k : Nat} (v : α) (h : j ≠ k) :
    Memory.read (Memory.write m k v) j = Memory.read m j := by
  induction m with
  | nil => simp [Memory.write, Memory.read, h]
  | cons c rest ih =>
    obtain ⟨i, u⟩ := c
    simp only [Memory.write]
    split
    · simp [Memory.read, h]
    · split
      · subst_vars; simp [Memory.read, h]
      · simp [Memory.read, ih]

/-- Writing a word twice is writing it once. -/
theorem Memory.write_write (m : Memory α) (k : Nat) (v : α) :
    Memory.write (Memory.write m k v) k v = Memory.write m k v := by
  induction m with
  | nil => simp [Memory.write]
  | cons c rest ih =>
    obtain ⟨j, u⟩ := c
    by_cases h1 : k < j
    · simp [Memory.write, h1]
    · by_cases h2 : k = j
      · simp [Memory.write, h2]
      · simp [Memory.write, h1, h2, ih]

/-- The listed words after a write are the one written and words listed before. -/
theorem Memory.mem_write {m : Memory α} {k : Nat} {v : α} {c : Nat × α}
    (h : c ∈ Memory.write m k v) : c = (k, v) ∨ c ∈ m := by
  induction m with
  | nil => simpa [Memory.write] using h
  | cons d rest ih =>
    obtain ⟨j, u⟩ := d
    simp only [Memory.write] at h
    split at h
    · simpa using h
    · split at h
      · simp only [List.mem_cons] at h ⊢; tauto
      · simp only [List.mem_cons] at h ⊢
        rcases h with h | h
        · tauto
        · rcases ih h with h | h <;> tauto

/-- The listed words after an erase were listed before. -/
theorem Memory.mem_erase {m : Memory α} {k : Nat} {c : Nat × α} (h : c ∈ Memory.erase m k) : c ∈ m := by
  induction m with
  | nil => simp [Memory.erase] at h
  | cons d rest ih =>
    obtain ⟨j, u⟩ := d
    simp only [Memory.erase] at h
    split at h
    · exact List.mem_cons_of_mem _ h
    · simp only [List.mem_cons] at h ⊢
      exact h.imp id ih

/-- The canonical form as an order on the listed numbers. -/
theorem Memory.wf_iff_pairwise (m : Memory α) :
    Memory.wf m = true ↔ m.Pairwise fun c d => c.1 < d.1 := by
  induction m with
  | nil => simp [Memory.wf]
  | cons c rest ih =>
    cases rest with
    | nil => simp [Memory.wf]
    | cons d rest =>
      obtain ⟨j, u⟩ := c
      obtain ⟨k, v⟩ := d
      rw [show Memory.wf ((j, u) :: (k, v) :: rest) = (decide (j < k) && Memory.wf ((k, v) :: rest)) from rfl,
        Bool.and_eq_true, ih, decide_eq_true_iff]
      constructor
      · rintro ⟨hjk, hp⟩
        refine List.pairwise_cons.2 ⟨?_, hp⟩
        intro c hc
        rcases List.mem_cons.1 hc with rfl | hc
        · exact hjk
        · exact lt_trans hjk ((List.pairwise_cons.1 hp).1 c hc)
      · intro h
        obtain ⟨ha, hp⟩ := List.pairwise_cons.1 h
        exact ⟨ha (k, v) (List.mem_cons_self ..), hp⟩

/-- A write keeps the canonical form. -/
theorem Memory.wf_write {m : Memory α} (k : Nat) (v : α) (h : Memory.wf m = true) :
    Memory.wf (Memory.write m k v) = true := by
  rw [Memory.wf_iff_pairwise] at h ⊢
  induction m with
  | nil => simp [Memory.write]
  | cons c rest ih =>
    obtain ⟨j, u⟩ := c
    obtain ⟨ha, hp⟩ := List.pairwise_cons.1 h
    simp only [Memory.write]
    split
    case isTrue hk =>
      refine List.pairwise_cons.2 ⟨?_, h⟩
      intro d hd
      rcases List.mem_cons.1 hd with rfl | hd
      · exact hk
      · exact lt_trans hk (ha d hd)
    case isFalse hk =>
      split
      case isTrue he => subst he; exact List.pairwise_cons.2 ⟨ha, hp⟩
      case isFalse he =>
        refine List.pairwise_cons.2 ⟨?_, ih hp⟩
        intro d hd
        rcases Memory.mem_write hd with rfl | hd
        · show j < k
          omega
        · exact ha d hd

/-- An erase keeps the canonical form. -/
theorem Memory.wf_erase {m : Memory α} (k : Nat) (h : Memory.wf m = true) :
    Memory.wf (Memory.erase m k) = true := by
  rw [Memory.wf_iff_pairwise] at h ⊢
  induction m with
  | nil => simp [Memory.erase]
  | cons c rest ih =>
    obtain ⟨j, u⟩ := c
    obtain ⟨ha, hp⟩ := List.pairwise_cons.1 h
    simp only [Memory.erase]
    split
    · exact hp
    · exact List.pairwise_cons.2 ⟨fun d hd => ha d (Memory.mem_erase hd), ih hp⟩

/-- A number below all listed numbers is not listed. -/
theorem Memory.read_eq_none {m : Memory α} {k : Nat} (h : ∀ c ∈ m, k < c.1) : Memory.read m k = none := by
  induction m with
  | nil => rfl
  | cons c rest ih =>
    obtain ⟨j, u⟩ := c
    have hj : k < j := h (j, u) (List.mem_cons_self ..)
    simp only [Memory.read, Nat.ne_of_lt hj, if_false]
    exact ih fun d hd => h d (List.mem_cons_of_mem _ hd)

/-- In canonical form, an erased word is not listed. -/
theorem Memory.read_erase_same {m : Memory α} (k : Nat) (h : Memory.wf m = true) :
    Memory.read (Memory.erase m k) k = none := by
  rw [Memory.wf_iff_pairwise] at h
  induction m with
  | nil => rfl
  | cons c rest ih =>
    obtain ⟨j, u⟩ := c
    obtain ⟨ha, hp⟩ := List.pairwise_cons.1 h
    simp only [Memory.erase]
    split
    case isTrue he => subst he; exact Memory.read_eq_none ha
    case isFalse he => simp [Memory.read, he, ih hp]

/-- An erase leaves every other word alone. -/
theorem Memory.read_erase_other (m : Memory α) {j k : Nat} (h : j ≠ k) :
    Memory.read (Memory.erase m k) j = Memory.read m j := by
  induction m with
  | nil => rfl
  | cons c rest ih =>
    obtain ⟨i, u⟩ := c
    simp only [Memory.erase]
    split
    case isTrue he => subst he; simp [Memory.read, h]
    case isFalse he => simp [Memory.read, ih]

/-- A listed word is the one read. -/
theorem Memory.mem_of_read {m : Memory α} {k : Nat} {v : α} (h : Memory.read m k = some v) :
    (k, v) ∈ m := by
  induction m with
  | nil => simp at h
  | cons c rest ih =>
    obtain ⟨j, u⟩ := c
    simp only [Memory.read] at h
    split at h
    case isTrue he => subst he; simp_all
    case isFalse he => exact List.mem_cons_of_mem _ (ih h)

/-! ### Delay lines -/

@[simp] theorem delayAt_nil (j : Nat) : delayAt [] j = 0#16 := rfl

/-- The canonical form of a delay line, clause by clause. -/
theorem delayWf_iff (m : Memory SampleWord) :
    delayWf m = true ↔ Memory.wf m = true ∧ ∀ c ∈ m, c.2 ≠ 0 := by
  simp [delayWf]

/-- What a delay-line write does: the word written reads as written, every other as before, the canonical
form is kept, and no other word becomes listed. -/
theorem delayWrite_spec (m : Memory SampleWord) (k : Nat) (x : SampleWord) (h : delayWf m = true) :
    delayAt (delayWrite m k x) k = x
      ∧ (∀ j, j ≠ k → delayAt (delayWrite m k x) j = delayAt m j)
      ∧ delayWf (delayWrite m k x) = true
      ∧ ∀ c ∈ delayWrite m k x, c.1 = k ∨ c ∈ m := by
  obtain ⟨hw, hz⟩ := (delayWf_iff m).1 h
  unfold delayWrite
  split
  case isTrue hx =>
    refine ⟨?_, ?_, (delayWf_iff _).2 ⟨Memory.wf_erase k hw, fun c hc => hz c (Memory.mem_erase hc)⟩,
      fun c hc => .inr (Memory.mem_erase hc)⟩
    · simp [delayAt, Memory.read_erase_same k hw, hx]
    · intro j hj; simp [delayAt, Memory.read_erase_other m hj]
  case isFalse hx =>
    refine ⟨?_, ?_, (delayWf_iff _).2 ⟨Memory.wf_write k x hw, ?_⟩, ?_⟩
    · simp [delayAt]
    · intro j hj; simp [delayAt, Memory.read_write_other m x hj]
    · intro c hc
      rcases Memory.mem_write hc with rfl | hc
      · exact hx
      · exact hz c hc
    · intro c hc
      rcases Memory.mem_write hc with rfl | hc
      · exact .inl rfl
      · exact .inr hc

@[simp] theorem delayWrite_nil_zero (k : Nat) : delayWrite [] k 0#16 = [] := rfl

/-! ### Coefficient memory -/

/-- A coefficient word reads as the value just written. -/
@[simp] theorem coefAt_coefWrite_same (P : Params) (p b : Nat) (m : Memory Int) (k : Nat) (v : Word) :
    coefAt P p b (coefWrite P m k v) k = coefValue P v := by
  simp [coefAt, coefWrite]

/-- A coefficient write leaves every other word alone. -/
theorem coefAt_coefWrite_other (P : Params) (p b : Nat) (m : Memory Int) {j k : Nat} (v : Word)
    (h : j ≠ k) : coefAt P p b (coefWrite P m k v) j = coefAt P p b m j := by
  simp [coefAt, coefWrite, Memory.read_write_other m _ h]

end Sys2Proof.Machine
end

