-- ==== Sys2Proof/Laws/Fir.lean ====
section
/-!
SUPPORT. The laws of unit FIR.
-/

namespace Sys2Proof.Machine

/-- The accumulator of R72's loop is the sum of its terms. -/
theorem firAcc_eq_sum (tap : Nat → Int) (B : Band) :
    firAcc tap B = ∑ k ∈ Finset.range B.tapCount, firTerm tap B k := by
  unfold firAcc
  generalize B.tapCount = n
  induction n with
  | zero => rfl
  | succ n ih => rw [List.range_succ, List.foldl_append, ih, Finset.sum_range_succ]; rfl

/-- What `FIR_apply` does to the band: the cursor's word of the delay line and the cursor (R71). -/
theorem firApply_band (P : Params) (tap : Nat → Int) (B : Band) (x : SampleWord) :
    (firApply P tap B x).band =
      { B with dl := delayWrite B.dl B.cur x, cur := (B.cur + 1) % B.tapCount } := rfl

/-- The filtered sample of R72. -/
theorem firApply_y (P : Params) (tap : Nat → Int) (B : Band) (x : SampleWord) :
    (firApply P tap B x).y = floorShr (firAcc tap (firStore B x)) P.coefFrac := rfl

/-- The sum reads the taps below the tap count only (R28, R72). -/
theorem firAcc_congr {tap tap' : Nat → Int} {B : Band} (h : ∀ k, k < B.tapCount → tap k = tap' k) :
    firAcc tap B = firAcc tap' B := by
  rw [firAcc_eq_sum, firAcc_eq_sum]
  exact Finset.sum_congr rfl fun k hk => by rw [firTerm, firTerm, h k (Finset.mem_range.1 hk)]

end Sys2Proof.Machine
end

