-- ==== Sys2Proof/Laws/PeakDetector.lean ====
section
/-!
SUPPORT. The laws of unit PKD.
-/

namespace Sys2Proof.Machine

/-- The threshold over the integers: the clamp at 0 never acts (R93). -/
theorem threshold_cast (P : Params) (B : Band) (wm : Int) :
    (threshold P B wm : Int) = max (wm * B.sens.toNat) (B.floor.toNat * 2 ^ P.sensFrac) := by
  have h : (0 : Int) ≤ B.floor.toNat * 2 ^ P.sensFrac := by positivity
  unfold threshold
  rw [Int.toNat_of_nonneg (le_trans h (le_max_right _ _))]

/-- A peak step on a peak (R92, R96). -/
theorem pkdStep_peak (P : Params) (fs : Word) (B : Band) (y wm : Int) (h : isPeak P B y wm = true) :
    pkdStep P fs B y wm =
      ⟨{ B with thr := threshold P B wm, bpm := bpmEstimate fs B.sslp, sslp := 0 }, true⟩ := by
  simp [pkdStep, h, peakPath]

/-- A peak step without a peak (R92, R97). -/
theorem pkdStep_nonPeak (P : Params) (fs : Word) (B : Band) (y wm : Int) (h : isPeak P B y wm = false) :
    pkdStep P fs B y wm =
      ⟨{ B with thr := threshold P B wm, pos := wrapInc P B.pos, sslp := satInc P B.sslp }, false⟩ := by
  simp [pkdStep, h, nonPeakPath]

/-- The step reports a peak exactly when `over` and `deb` hold (R92). -/
theorem pkdStep_peak_iff (P : Params) (fs : Word) (B : Band) (y wm : Int) :
    (pkdStep P fs B y wm).peak = isPeak P B y wm := by
  cases h : isPeak P B y wm
  · rw [pkdStep_nonPeak P fs B y wm h]
  · rw [pkdStep_peak P fs B y wm h]

/-- What a peak step does to the band, both paths: only `THR`, `SSLP`, `POS` and `BPM` may change (R91). -/
theorem pkdStep_frame (P : Params) (fs : Word) (B : Band) (y wm : Int) :
    ∃ thr sslp pos bpm, (pkdStep P fs B y wm).band = { B with thr := thr, sslp := sslp, pos := pos, bpm := bpm } := by
  cases h : isPeak P B y wm
  · exact ⟨_, _, _, _, by rw [pkdStep_nonPeak P fs B y wm h]⟩
  · exact ⟨_, _, _, _, by rw [pkdStep_peak P fs B y wm h]⟩

/-- `over` and `deb` as comparisons of numbers (R94, R95). -/
theorem isPeak_iff (P : Params) (B : Band) (y wm : Int) :
    isPeak P B y wm = true ↔
      (threshold P B wm : Int) ≤ y * 2 ^ P.sensFrac ∧ B.minDist.toNat < B.sslp.toNat := by
  simp [isPeak, overThreshold, debounceOk]

end Sys2Proof.Machine
end

