-- ==== Sys2Proof/Laws/SlidingMax.lean ====
section
/-!
SUPPORT. The laws of unit SWM.
-/

namespace Sys2Proof.Machine

/-- Eviction keeps a contiguous stretch of the deque. -/
theorem evict_sublist (w : Nat) (v : Int) (idx : Index) (d : List DqEntry) :
    (evict w v idx d).Sublist d := by
  have h1 : (dropStale w idx d).Sublist d := List.dropWhile_sublist _
  have h2 : ((dropStale w idx d).reverse.dropWhile fun e => decide (e.val ≤ v)).reverse.Sublist
      (dropStale w idx d) := by
    have := (List.dropWhile_sublist (l := (dropStale w idx d).reverse) fun e => decide (e.val ≤ v)).reverse
    simpa using this
  exact h2.trans h1

/-- Making room keeps a part of the deque. -/
theorem makeRoom_sublist (P : Params) (d : List DqEntry) : (makeRoom P d).Sublist d := by
  unfold makeRoom
  split
  · exact List.tail_sublist d
  · exact List.Sublist.refl d

/-- Making room leaves room (R85). -/
theorem length_makeRoom (P : Params) {d : List DqEntry} (hc : 1 ≤ P.dqCap) (hd : d.length ≤ P.dqCap) :
    (makeRoom P d).length + 1 ≤ P.dqCap := by
  unfold makeRoom dequeFull
  split
  case isTrue h => simp at h; simp; omega
  case isFalse h => simp at h; omega

/-- On decreasing values, step 2 of R81 keeps exactly the entries above the incoming value (R84). -/
theorem dropDominated_eq_filter (v : Int) (d : List DqEntry)
    (h : d.Pairwise fun older younger => younger.val < older.val) :
    dropDominated v d = d.filter fun e => decide (v < e.val) := by
  have key : ∀ l : List DqEntry, l.Pairwise (fun younger older => younger.val < older.val) →
      (l.dropWhile fun e => decide (e.val ≤ v)) = l.filter fun e => decide (v < e.val) := by
    intro l hl
    induction l with
    | nil => rfl
    | cons e rest ih =>
      obtain ⟨ha, hp⟩ := List.pairwise_cons.1 hl
      by_cases he : e.val ≤ v
      · have : ¬ v < e.val := by omega
        simp [he, this, ih hp]
      · have hv : v < e.val := by omega
        have : rest.filter (fun e => decide (v < e.val)) = rest :=
          List.filter_eq_self.2 fun c hc => by have := ha c hc; simp; omega
        simp [he, hv, this]
  unfold dropDominated
  rw [key _ (List.pairwise_reverse.2 h), List.filter_reverse, List.reverse_reverse]

/-- What `SWM_push` leaves: entries that were there, then the pushed pair (R81, R86). -/
theorem swmPush_dq (P : Params) (w : Nat) (d : List DqEntry) (v : Int) (idx : Index) :
    (swmPush P w d v idx).dq = makeRoom P (evict w v idx d) ++ [⟨v, idx⟩] := rfl

/-- When the capacity guard fires (R85). -/
theorem swmPush_guardFired (P : Params) (w : Nat) (d : List DqEntry) (v : Int) (idx : Index) :
    (swmPush P w d v idx).guardFired = dequeFull P (evict w v idx d) := rfl

/-- The returned maximum is the old-end value (R86). -/
theorem swmPush_wm (P : Params) (w : Nat) (d : List DqEntry) (v : Int) (idx : Index) :
    (swmPush P w d v idx).dq.head?.map DqEntry.val = some (swmPush P w d v idx).wm := by
  simp only [swmPush]
  cases makeRoom P (evict w v idx d) <;> rfl

/-- Where the deque comes from: every entry was there or is the pushed pair. -/
theorem mem_swmPush {P : Params} {w : Nat} {d : List DqEntry} {v : Int} {idx : Index} {e : DqEntry}
    (h : e ∈ (swmPush P w d v idx).dq) : e ∈ d ∨ e = ⟨v, idx⟩ := by
  rw [swmPush_dq, List.mem_append, List.mem_singleton] at h
  exact h.imp (fun h => (evict_sublist w v idx d).subset ((makeRoom_sublist P _).subset h)) id

end Sys2Proof.Machine
end

