-- ==== Sys2Proof/Laws/Bank.lean ====
section
/-!
SUPPORT. The laws of the band bank: one band's pipeline, one turn of SAMPLE's loop, everything SAMPLE can
do.
-/

namespace Sys2Proof.Machine

/-- What a band's pipeline does to the band: the delay line, the cursor, the deque and the runtime
registers may change, the configuration and the coefficient memory never (R36, R37). -/
theorem bandPipeline_frame (P : Params) (fs : Word) (tap : Nat → Int) (B : Band) (x : SampleWord)
    (idx : Index) :
    ∃ thr sslp pos bpm, (bandPipeline P fs tap B x idx).band =
      { B with
        dl := delayWrite B.dl B.cur x
        cur := (B.cur + 1) % B.tapCount
        dq := (swmPush P B.wlen.toNat B.dq (trackerInput P (firApply P tap B x).y) idx).dq
        thr := thr, sslp := sslp, pos := pos, bpm := bpm } := by
  obtain ⟨thr, sslp, pos, bpm, h⟩ := pkdStep_frame P fs
    { (firApply P tap B x).band with
      dq := (swmPush P B.wlen.toNat B.dq (trackerInput P (firApply P tap B x).y) idx).dq }
    (firApply P tap B x).y (swmPush P B.wlen.toNat B.dq (trackerInput P (firApply P tap B x).y) idx).wm
  exact ⟨thr, sslp, pos, bpm, h⟩

/-- The state after one turn of SAMPLE's loop (R104). -/
theorem sampleBand_st (P : Params) (x : SampleWord) (idx : Index) (acc : BankAcc) (b : Nat) :
    (sampleBand P x idx acc b).st =
      let s := acc.st
      let r := bandPipeline P s.fs (coefAt P s.powerOn b (s.band b).coef) (s.band b) x idx
      { s.setBand b r.band with dqovf := stickyOverflow s.dqovf r.guardFired } := by
  unfold sampleBand
  dsimp only
  split <;> rfl

/-- One turn of SAMPLE's loop leaves everything but the band slots and `DQOVF` alone. -/
theorem sampleBand_frame (P : Params) (x : SampleWord) (idx : Index) (acc : BankAcc) (b : Nat) :
    (sampleBand P x idx acc b).st =
      { acc.st with
        bands := (sampleBand P x idx acc b).st.bands
        dqovf := (sampleBand P x idx acc b).st.dqovf } := by
  rw [sampleBand_st]
  rfl

/-- Everything SAMPLE can do (R104). -/
theorem sampleWith_cases (P : Params) (x : SampleWord) (idx : Index) (s : State) :
    (s.mode = .config ∧ sampleWith P x idx s = .next (nak P .badState s))
    ∨ (s.mode = .run ∧ sampleDefined P s = true
        ∧ sampleWith P x idx s = .next (processSample P x idx s))
    ∨ (s.mode = .run ∧ sampleDefined P s = false
        ∧ sampleWith P x idx s = .fault .sampleOutsideDomain) := by
  unfold sampleWith
  cases hm : s.mode with
  | config => exact .inl ⟨rfl, rfl⟩
  | run =>
    cases hd : sampleDefined P s with
    | true => simp
    | false => simp

end Sys2Proof.Machine
end

