-- ==== Sys2Proof/Laws/BankLoop.lean ====
section
/-!
SUPPORT. What SAMPLE's loop leaves, band by band: the lemma that replaces the fold.
-/

namespace Sys2Proof.Machine

/-- The values of SAMPLE's loop after the bands below `n` (R104, R109). -/
theorem sampleLoop_prefix (P : Params) (x : SampleWord) (idx : Index) (s : State) (n : Nat)
    (hn : n ≤ Config.slots) :
    let acc := (List.range n).foldl (sampleBand P x idx) { st := s, mask := 0, events := [] }
    acc.st = { s with bands := acc.st.bands, dqovf := acc.st.dqovf }
    ∧ (∀ b, acc.st.band b = if b < n then (bandOutcome P x idx s b).band else s.band b)
    ∧ (acc.st.dqovf = true ↔ s.dqovf = true ∨ ∃ b, b < n ∧ (bandOutcome P x idx s b).guardFired = true)
    ∧ acc.mask < 2 ^ n
    ∧ (∀ b, acc.mask.testBit b = (decide (b < n) && (bandOutcome P x idx s b).peak))
    ∧ acc.events = ((List.range n).filter fun b => (bandOutcome P x idx s b).peak).map
        fun b => peakEvent s.fs b (bandOutcome P x idx s b).band := by
  induction n with
  | zero => refine ⟨rfl, fun b => by simp, by simp, by simp, fun b => by simp, by simp⟩
  | succ n ih =>
    obtain ⟨h1, h2, h3, h4, h5, h6⟩ := ih (by omega)
    simp only [List.range_succ, List.foldl_append, List.foldl_cons, List.foldl_nil]
    generalize (List.range n).foldl (sampleBand P x idx) { st := s, mask := 0, events := [] } = acc
      at h1 h2 h3 h4 h5 h6 ⊢
    have hfs : acc.st.fs = s.fs := by rw [h1]
    have hpo : acc.st.powerOn = s.powerOn := by rw [h1]
    have hb : acc.st.band n = s.band n := by rw [h2]; simp
    have ho : bandPipeline P acc.st.fs (coefAt P acc.st.powerOn n (acc.st.band n).coef) (acc.st.band n) x idx
        = bandOutcome P x idx s n := by rw [hfs, hpo, hb]; rfl
    have hst := sampleBand_st P x idx acc n
    simp only [ho] at hst
    refine ⟨?_, ?_, ?_, ?_, ?_, ?_⟩
    · rw [hst]; simp only [State.setBand]; rw [h1]
    · intro b
      have : (sampleBand P x idx acc n).st.band b =
          (acc.st.setBand n (bandOutcome P x idx s n).band).band b := by rw [hst]; rfl
      rw [this]
      by_cases e : b = n
      · subst e; rw [band_setBand_same _ _ (by omega)]; simp
      · rw [band_setBand_other _ _ e, h2]
        by_cases hlt : b < n
        · simp [hlt, Nat.lt_succ_of_lt hlt]
        · have : ¬ b < n + 1 := by omega
          simp [hlt, this]
    · rw [hst]
      simp only [stickyOverflow, Bool.or_eq_true, h3]
      constructor
      · rintro ((h | ⟨b, hb, h⟩) | h)
        · exact .inl h
        · exact .inr ⟨b, by omega, h⟩
        · exact .inr ⟨n, by omega, h⟩
      · rintro (h | ⟨b, hb, h⟩)
        · exact .inl (.inl h)
        · by_cases e : b = n
          · subst e; exact .inr h
          · exact .inl (.inr ⟨b, by omega, h⟩)
    · unfold sampleBand
      simp only [ho]
      split
      · simp only; rw [pow_succ]; omega
      · simp only; rw [pow_succ]; omega
    · intro b
      unfold sampleBand
      simp only [ho]
      cases hp : (bandOutcome P x idx s n).peak
      · simp only [Bool.false_eq_true, if_false, h5]
        by_cases e : b = n
        · subst e; simp [hp]
        · have : b < n + 1 ↔ b < n := by omega
          simp [this]
      · simp only [if_true]
        rw [add_comm]
        by_cases e : b = n
        · subst e
          rw [Nat.testBit_two_pow_add_eq, h5]; simp [hp]
        · by_cases hlt : b < n
          · rw [Nat.testBit_two_pow_add_gt hlt, h5]; simp [hlt, Nat.lt_succ_of_lt hlt]
          · have h1' : ¬ b < n + 1 := by omega
            have : 2 ^ n + acc.mask < 2 ^ b := by
              have : 2 ^ (n+1) ≤ 2 ^ b := Nat.pow_le_pow_right (by norm_num) (by omega)
              rw [pow_succ] at this; omega
            rw [Nat.testBit_lt_two_pow this]; simp [h1']
    · unfold sampleBand
      simp only [ho]
      cases hp : (bandOutcome P x idx s n).peak
      · simp [h6, List.filter_append, hp]
      · simp [h6, List.filter_append, hp, hfs]

/-- Everything SAMPLE's loop leaves (R104, R105, R107, R109). -/
theorem sampleLoop_spec (P : Params) (x : SampleWord) (idx : Index) (s : State)
    (hn : s.nbands.toNat ≤ Config.slots) :
    let acc := sampleLoop P x idx s
    acc.st = { s with bands := acc.st.bands, dqovf := acc.st.dqovf }
    ∧ (∀ b, acc.st.band b = if b < s.nbands.toNat then (bandOutcome P x idx s b).band else s.band b)
    ∧ (acc.st.dqovf = true ↔
        s.dqovf = true ∨ ∃ b, b < s.nbands.toNat ∧ (bandOutcome P x idx s b).guardFired = true)
    ∧ acc.mask < 2 ^ s.nbands.toNat
    ∧ (∀ b, acc.mask.testBit b = peaksOn P x idx s b)
    ∧ acc.events =
        ((List.range s.nbands.toNat).filter fun b => (bandOutcome P x idx s b).peak).map
          fun b => peakEvent s.fs b (bandOutcome P x idx s b).band :=
  sampleLoop_prefix P x idx s s.nbands.toNat hn

end Sys2Proof.Machine
end

