-- ==== Sys2Proof/Laws/Encoding.lean ====
section
/-!
SUPPORT. The laws of the command word: its value as a number, and its fields (30_encoding R57, R69).
-/

namespace Sys2Proof

/-- A command word as a number (R69). -/
theorem toNat_commandWord (op : BitVec 4) (rsv : BitVec 12) (a : BitVec 16) (d : Word) :
    (commandWord op rsv a d).toNat =
      ((op.toNat * 2 ^ 12 + rsv.toNat) * 2 ^ 16 + a.toNat) * 2 ^ 32 + d.toNat := by
  have join : ∀ {m n : Nat} (x : BitVec m) (y : BitVec n), (x ++ y).toNat = x.toNat * 2 ^ n + y.toNat := by
    intro m n x y
    rw [BitVec.toNat_append, ← Nat.shiftLeft_add_eq_or_of_lt y.isLt, Nat.shiftLeft_eq]
  exact (join (op ++ rsv ++ a) d).trans (by rw [join (op ++ rsv) a, join op rsv])

/-- The fields of a command word are the ones it was made of (R57). -/
theorem fields_commandWord (op : BitVec 4) (rsv : BitVec 12) (a : BitVec 16) (d : Word) :
    fieldOP (commandWord op rsv a d) = op ∧ fieldRSV (commandWord op rsv a d) = rsv
      ∧ fieldA (commandWord op rsv a d) = a ∧ fieldD (commandWord op rsv a d) = d := by
  have := op.isLt
  have := rsv.isLt
  have := a.isLt
  have := d.isLt
  refine ⟨?_, ?_, ?_, ?_⟩ <;> apply BitVec.eq_of_toNat_eq <;>
    simp only [fieldOP, fieldRSV, fieldA, fieldD, BitVec.extractLsb'_toNat, Nat.shiftRight_eq_div_pow,
      toNat_commandWord] <;>
    omega

@[simp] theorem fieldOP_commandWord (op : BitVec 4) (rsv : BitVec 12) (a : BitVec 16) (d : Word) :
    fieldOP (commandWord op rsv a d) = op := (fields_commandWord op rsv a d).1

@[simp] theorem fieldRSV_commandWord (op : BitVec 4) (rsv : BitVec 12) (a : BitVec 16) (d : Word) :
    fieldRSV (commandWord op rsv a d) = rsv := (fields_commandWord op rsv a d).2.1

@[simp] theorem fieldA_commandWord (op : BitVec 4) (rsv : BitVec 12) (a : BitVec 16) (d : Word) :
    fieldA (commandWord op rsv a d) = a := (fields_commandWord op rsv a d).2.2.1

@[simp] theorem fieldD_commandWord (op : BitVec 4) (rsv : BitVec 12) (a : BitVec 16) (d : Word) :
    fieldD (commandWord op rsv a d) = d := (fields_commandWord op rsv a d).2.2.2

/-- A command word is made of its fields: no bit is dropped (R57). -/
theorem commandWord_fields (w : CmdWord) :
    commandWord (fieldOP w) (fieldRSV w) (fieldA w) (fieldD w) = w := by
  apply BitVec.eq_of_toNat_eq
  rw [toNat_commandWord]
  simp only [fieldOP, fieldRSV, fieldA, fieldD, BitVec.extractLsb'_toNat, Nat.shiftRight_eq_div_pow]
  have := w.isLt
  omega

end Sys2Proof
end

