-- ==== Sys2Proof/Laws/PerInstr.lean ====
section
/-!
SUPPORT. What holds of every command as syntax, one lemma a constructor.
-/

namespace Sys2Proof

/-- The encoding of a command carries its opcode, a reserved field of 0, and both operand fields
(R57 to R59). -/
def Laws.EncodedFields.Statement (i : Instr) : Prop :=
  fieldOP (encode i) = i.opcode ∧ fieldRSV (encode i) = 0 ∧ fieldA (encode i) = i.operandA
    ∧ fieldD (encode i) = i.operandD

theorem Laws.EncodedFields.nop (a : BitVec 16) (d : Word) : Laws.EncodedFields.Statement (.nop a d) :=
  fields_commandWord ..

theorem Laws.EncodedFields.cfgw (addr : CfgAddr) (data : Word) :
    Laws.EncodedFields.Statement (.cfgw addr data) := fields_commandWord ..

theorem Laws.EncodedFields.cfgr (addr : CfgAddr) (d : Word) :
    Laws.EncodedFields.Statement (.cfgr addr d) := fields_commandWord ..

theorem Laws.EncodedFields.init (a : BitVec 16) (d : Word) : Laws.EncodedFields.Statement (.init a d) :=
  fields_commandWord ..

theorem Laws.EncodedFields.sample (x : SampleWord) (idx : Index) :
    Laws.EncodedFields.Statement (.sample x idx) := fields_commandWord ..

theorem Laws.EncodedFields.stop (a : BitVec 16) (d : Word) : Laws.EncodedFields.Statement (.stop a d) :=
  fields_commandWord ..

end Sys2Proof
end

