-- ==== Sys2Proof/Tests/Slice0.lean ====
section
/-!
SUPPORT. Checks of the model on small states, and for every statement with hypotheses a concrete instance
that meets them. "V-..." and "P1" name vectors of spec/95_test_vectors.md, from which the expected values
come; "R<n>" names a rule whose text gives the expected value.
-/

namespace Sys2Proof.Tests

open Sys2Proof.Machine

/-! ### Helpers -/

/-- Band 0 of V-BBO-1 after its INIT: one tap, `S1(44100, 66150, 0, 0)`. -/
def bandS1 : Band :=
  { Band.reset Config.params with
    ntaps := 1, wlen := 66150, sens := 0x1000, floor := 0, minDist := 0, coef := [(0, 65536)] }

/-- The block in RUN with that one band. -/
def bankS1 : State :=
  { State.reset with mode := .run, fs := 44100, nbands := 1, bands := State.reset.bands.set 0 bandS1 }

/-- The same block in CONFIG. -/
def idleS1 : State := { bankS1 with mode := .config }

/-- The response words a step sends, from a state that has sent none. -/
def sent (o : Host.Outcome State Fault Refusal) : List Word :=
  match o with
  | .next t => t.out.map RspWord.word
  | _ => []

/-- What a field of the next state is. -/
def after {α : Type} (o : Host.Outcome State Fault Refusal) (f : State → α) : Option α :=
  match o with
  | .next t => some (f t)
  | _ => none

/-! ### Parameters and well-formedness -/

theorem test_reference_is_legal : Params.reference.legal = true := by decide

/-- The instance of V-SWM-6. -/
def smallDeque : Params := { Params.reference with dqCap := 4 }

theorem test_smallDeque_is_legal : smallDeque.legal = true := by decide

/-- Each check of `Params.rangesLegal` refuses a record that breaks it alone. -/
theorem test_ranges_refused :
    ([ { Params.reference with nbMax := 0 }, { Params.reference with nbMax := 9 },
       { Params.reference with sampleW := 15 }, { Params.reference with coefW := 1 },
       { Params.reference with coefW := 33 }, { Params.reference with coefFrac := 18 },
       { Params.reference with ntMax := 0 }, { Params.reference with ntMax := 1025 },
       { Params.reference with idxW := 31 }, { Params.reference with dqCap := 0 },
       { Params.reference with dqCap := 2147483648 }, { Params.reference with sensW := 0 },
       { Params.reference with sensW := 33 }, { Params.reference with sensFrac := 17 },
       { Params.reference with floorW := 0 }, { Params.reference with floorW := 32 },
       { Params.reference with cntW := 31 }, { Params.reference with posW := 31 },
       { Params.reference with fsW := 0 }, { Params.reference with fsW := 27 } ].all
      fun P => !P.rangesLegal) = true := by decide

/-- Each check of `Params.widthsLegal` refuses a record that breaks it alone. -/
theorem test_widths_refused :
    ([ { Params.reference with ntLog := 9, accW := 43, yW := 27, tvW := 28, thrW := 43 },
       { Params.reference with ntLog := 11, accW := 45, yW := 29, tvW := 30, thrW := 45 },
       { Params.reference with accW := 45, yW := 29, tvW := 30, thrW := 45 },
       { Params.reference with yW := 29, tvW := 30, thrW := 45 },
       { Params.reference with tvW := 30, thrW := 45 },
       { Params.reference with thrW := 43 },
       { Params.reference with sensW := 37, thrW := 65 },
       { Params.reference with bpmW := 25 },
       { Params.reference with msW := 41 } ].all fun P => !P.widthsLegal) = true := by decide

/-- The assembler's form refuses a used ignored field, one check a command (R58). -/
theorem test_canonical_refused :
    ([ Instr.nop 1 0, Instr.nop 0 1, Instr.cfgr 2 1, Instr.init 1 0, Instr.init 0 1, Instr.stop 1 0,
       Instr.stop 0 1 ].all fun i => !i.canonical && i.wellFormed) = true := by decide

/-- Each range check of the assembler refuses a line that breaks it (R69, R70). -/
theorem test_source_refused :
    ([ Source.cfgw (.number 0x10000) 0, Source.cfgw (.name (.wlen 8)) 0, Source.cfgw (.number 2) 4294967296,
       Source.cfgw (.number 2) (-2147483649), Source.cfgr (.number 0x10000),
       Source.cfgr (.name (.coef 0 1024)), Source.sample 32768 0, Source.sample (-32769) 0,
       Source.sample 0 4294967296, Source.coef 8 0 0, Source.coef 0 1024 0, Source.coef 0 0 4294967296,
       Source.taps 8 [1], Source.taps 0 [4294967296], Source.rdthr 8, Source.burst 4294967296 [0],
       Source.burst 0 [32768] ].all fun c => !c.wellFormed Config.params) = true := by decide

/-! ### Decoding: words written out bit by bit from R57 to R59 -/

/-- `OP = 0000`, `RSV = 0`, `A = 0001 0010 0011 0100`, `D` = 1. -/
theorem test_decode_nop :
    decode 0b0000_000000000000_0001001000110100_00000000000000000000000000000001
      = .command (.nop 0x1234 1) := by decide

/-- `OP = 0001`, `A = 0x0002`, `D` = 44100 (P1, first word). -/
theorem test_decode_cfgw :
    decode 0b0001_000000000000_0000000000000010_00000000000000001010110001000100
      = .command (.cfgw 0x0002 44100) := by decide

/-- `OP = 0010`, `A = 0x010B`, `D` = 2. -/
theorem test_decode_cfgr :
    decode 0b0010_000000000000_0000000100001011_00000000000000000000000000000010
      = .command (.cfgr 0x010B 2) := by decide

/-- `OP = 0011`, `A` = 1, `D` = 2. -/
theorem test_decode_init :
    decode 0b0011_000000000000_0000000000000001_00000000000000000000000000000010
      = .command (.init 1 2) := by decide

/-- `OP = 0100`, `A = 0x7530` = 30000, `D` = 7. -/
theorem test_decode_sample :
    decode 0b0100_000000000000_0111010100110000_00000000000000000000000000000111
      = .command (.sample 30000 7) := by decide

/-- `OP = 0101`, `A` = 0x8000, `D` = 0x80000000. -/
theorem test_decode_stop :
    decode 0b0101_000000000000_1000000000000000_10000000000000000000000000000000
      = .command (.stop 0x8000 0x80000000) := by decide

/-- The two reasons of R60, at their boundaries; V-BBO-6. -/
theorem test_decode_illegal :
    decode 0x6000000000000000 = .illegal (.reservedOpcode 0x6)
      ∧ decode 0xF000000000000000 = .illegal (.reservedOpcode 0xF)
      ∧ decode 0x4001753000000000 = .illegal (.reservedFieldSet 0x001)
      ∧ decode 0x0800000000000000 = .illegal (.reservedFieldSet 0x800) := by decide

/-- No two rows of the opcode map overlap (R59, R60). -/
theorem test_opcodeMap_rows_disjoint :
    (opcodeMap.Pairwise fun r q => r.mask = q.mask ∧ r.pattern ≠ q.pattern) := by decide

/-- A table word of fewer bits has zeros above them. -/
theorem test_decodeTableWord :
    decodeTableWord 64 0x1000000200000007 = some (.cfgw 2 7)
      ∧ decodeTableWord 60 0x1000000200000007 = some (.nop 2 7)
      ∧ decodeTableWord 64 0x6000000000000000 = none := by decide

/-- The word presented is the next one the step runs. -/
theorem test_step_runs_presented_word :
    after (step (State.reset.withFetchWord 64 0x1000000200000007)) State.fs = some 7 := by decide

/-! ### The commands, on the examples of the spec -/

/-- A legal instance that is not the reference one: two bands, four taps, the signed tracker input. -/
def smallInstance : Params :=
  { Params.reference with
    nbMax := 2, ntMax := 4, ntLog := 2, accW := 36, yW := 20, tvW := 21, thrW := 39, sensFrac := 8,
    trackAbs := false }

theorem test_smallInstance_is_legal : smallInstance.legal = true := by decide

/-- The addresses that `NB_MAX = 2`, `NT_MAX = 4` leave (R42), and `SENS_ONE = 2^8` after reset (R40). -/
theorem test_instance_addresses :
    sent (exec (.cfgr 0x0112 0) (State.resetOf smallInstance)) = [0x10000000, 0x100]
      ∧ sent (exec (.cfgr 0x0122 0) (State.resetOf smallInstance)) = [0xF0000003]
      ∧ sent (exec (.cfgw 0x1003 1) (State.resetOf smallInstance)) = [0x00000000]
      ∧ sent (exec (.cfgw 0x1004 1) (State.resetOf smallInstance)) = [0xF0000003] := by decide

/-- The tracker takes the signed value where `TRACK_ABS` is false (R106). -/
theorem test_instance_signed_tracker :
    (after (step ({ bankS1 with params := smallInstance }.withFetchWord 64 0x40008AD000000000))
      fun t => (t.band 0).dq) = some [⟨-30000, 0⟩] := by decide

/-- The host's machine is the reference instance. -/
theorem test_core_is_reference : Sys2Proof.core = machineOf Params.reference := rfl

theorem test_nop_acknowledges : sent (exec (.nop 0xFFFF 7) bankS1) = [0x00000000] := by decide

/-- A coefficient word keeps its low 18 bits and reads back sign-extended (R49). -/
theorem test_cfgw_coefficient_reads_back :
    (after (exec (.cfgw 0x1402 0xFFFFC000) State.reset) fun t => cfgRead Config.params t (.coef 1 2))
      = some 0xFFFFC000 := by decide

/-- CFGW in RUN is refused before its address is looked at (R115). -/
theorem test_cfgw_refused_in_run : sent (exec (.cfgw 0xFFFF 1) bankS1) = [0xF0000002] := by decide

/-- `FLOOR[0]` after reset is 1638 (R40). -/
theorem test_cfgr_floor_after_reset : sent (exec (.cfgr 0x0103 0) State.reset) = [0x10000000, 1638] := by
  decide

/-- A gap of a band block is unmapped (R42, R47). -/
theorem test_cfgr_unmapped : sent (exec (.cfgr 0x0105 0) State.reset) = [0xF0000003] := by decide

/-- INIT right after reset: FS_RANGE, no band (P3, first two responses). -/
theorem test_init_after_reset :
    sent (exec (.init 0 0) State.reset) = [0xF0000004]
      ∧ after (exec (.init 0 0) State.reset) State.cfgerr = some 0xFF01 := by decide

theorem test_init_enters_run : after (exec (.init 0 0) idleS1) State.mode = some .run := by decide

/-- V-BBO-1. -/
theorem test_sample_peak :
    sent (exec (.sample 30000 0) bankS1) = [0x20000001, 0, 0, 0, 0]
      ∧ (after (exec (.sample 30000 0) bankS1) fun t => cfgRead Config.params t (.thrLo 0))
          = some 0x07530000 := by decide

/-- The peak of a negative excursion is not a peak; the tracker holds its absolute value (V-BBO-4). -/
theorem test_sample_negative :
    sent (exec (.sample (BitVec.ofInt 16 (-30000)) 0) bankS1) = [0x20000000]
      ∧ (after (exec (.sample (BitVec.ofInt 16 (-30000)) 0) bankS1) fun t => (t.band 0).dq)
          = some [⟨30000, 0⟩] := by decide

theorem test_stop_leaves_run : after (exec (.stop 0 0) bankS1) State.mode = some .config := by decide

theorem test_stop_refused_in_config : sent (exec (.stop 0 0) State.reset) = [0xF0000002] := by decide

/-! ### The units, on vectors of the spec -/

/-- V-FIR-9: the third call of V-FIR-3. -/
theorem test_fir_mid_state :
    let tap : Nat → Int := fun k => if k = 1 then 0x8000 else 0x4000
    let r := firApply Config.params tap
      { Band.reset Config.params with ntaps := 3, dl := [(0, 100), (1, 200)], cur := 2 } (BitVec.ofInt 16 (-300))
    r.y = 50 ∧ r.band.cur = 0 := by decide

/-- V-SWM-10, first push: an older equal value is evicted. -/
theorem test_swm_tie :
    swmPush Config.params 3 [⟨7, 10⟩, ⟨4, 11⟩] 4 12 = ⟨[⟨7, 10⟩, ⟨4, 12⟩], false, 7⟩ := by decide

/-- V-SWM-6, fifth push: the capacity guard drops the oldest entry. -/
theorem test_swm_capacity :
    swmPush smallDeque 4 [⟨9, 7⟩, ⟨8, 7⟩, ⟨7, 7⟩, ⟨6, 7⟩] 5 7
      = ⟨[⟨8, 7⟩, ⟨7, 7⟩, ⟨6, 7⟩, ⟨5, 7⟩], true, 8⟩ := by decide

/-- V-PKD-3b: the debounce boundary; `rhu(2646000, 8821) = 300`. -/
theorem test_pkd_debounce_boundary :
    let B := { Band.reset Config.params with sens := 0x1000, floor := 0, minDist := 8820, sslp := 8821, pos := 500, bpm := 77 }
    let r := pkdStep Config.params 44100 B 30000 30000
    r.peak = true ∧ r.band.bpm = 300 ∧ r.band.pos = 500 ∧ r.band.sslp = 0 := by decide

/-- V-PKD-6: `POS` wraps, `SSLP` counts. -/
theorem test_pkd_position_wraps :
    let B := { Band.reset Config.params with sslp := 5, pos := 0xFFFFFFFF }
    let r := pkdStep Config.params 44100 B 0 0
    r.peak = false ∧ r.band.pos = 0 ∧ r.band.sslp = 6 ∧ r.band.thr = 6709248 := by decide

/-- V-BBO-5, last row: all four words of an event record. -/
theorem test_event_record :
    eventWords Config.params (peakEvent 1 3 { Band.reset Config.params with pos := 0xFFFFFFFF })
      = [3, 0xFFFFFFFF, 0xFFFFFC18, 0x3E7] := by decide

/-- V-BBO-7: `burst 0xFFFFFFFF, 1, 2, -3`, from its text. -/
theorem test_assembler_burst :
    ((readLine "burst 0xFFFFFFFF, 1, 2, -3 # wraps".toList).map fun l => l.map fun c => (assemble c).map encode)
      = some (some [0x40000001FFFFFFFF, 0x4000000200000000, 0x4000FFFD00000001]) := by decide

/-- V-BBO-7: `taps 0, 0x4000, 0x8000, 0x4000`. -/
theorem test_assembler_taps :
    (assemble (.taps 0 [0x4000, 0x8000, 0x4000])).map encode
      = [0x1000010000000003, 0x1000100000004000, 0x1000100100008000, 0x1000100200004000] := by decide

/-! ### Instances that meet the hypotheses of the statements -/

theorem witness_DecodeInvertsEncode : (Instr.sample 0x8000 0xFFFFFFFF).wellFormed = true := by decide

theorem witness_EncodeInvertsDecode : decode 0x5000FFFFFFFFFFFF = .command (.stop 0xFFFF 0xFFFFFFFF) := by
  decide

theorem witness_IllegalWordsAreRejected :
    6 ≤ (fieldOP 0x6000000000000000).toNat ∧ fieldRSV 0x0001000000000000 ≠ 0
      ∧ ¬(6 ≤ (fieldOP 0x5000FFFFFFFFFFFF).toNat ∨ fieldRSV 0x5000FFFFFFFFFFFF ≠ 0) := by decide

theorem witness_OpcodeMapIsTheDecoder :
    (⟨"sample", 0x4000000000000000, 0xFFFF000000000000⟩ : OpcodeRow) ∈ opcodeMap
      ∧ OpcodeRow.fits ⟨"sample", 0x4000000000000000, 0xFFFF000000000000⟩ 0x4000FFFFFFFFFFFF = true := by
  decide

/-- The longest response, eight peaks. -/
theorem witness_ResponseLengthFollowsFromHeader :
    ∀ mask events, Response.peaks 0xFF (List.replicate 8 ⟨0, 0, 0⟩) = .peaks mask events →
      events.length = popcount mask := by
  intro mask events h
  cases h
  decide

theorem witness_EveryCommandGivesOneResponse :
    bankS1.params.legal = true ∧ ∃ t, exec (.sample 30000 0) bankS1 = .next t ∧ t.out.length = 5 :=
  ⟨by decide, _, rfl, by decide⟩

theorem witness_FloorShiftIsFloorDivision : (-1 : Int) * 2 ^ 16 ≤ -1 := by decide

theorem witness_RoundHalfUpIsNearest : 1 ≤ 1 := by decide

theorem witness_CounterIncrements :
    Config.params.legal = true ∧ satInc Config.params 0xFFFFFFFF = 0xFFFFFFFF
      ∧ wrapInc Config.params 0xFFFFFFFF = 0 := by decide

/-- The index has wrapped; it has not. -/
theorem witness_AgeIsDifferenceModulo :
    Config.params.legal = true ∧ age 1 0xFFFFFFFE = 3
      ∧ (0 : Index).toNat ≤ (0xFFFFFFFF : Index).toNat ∧ age 0xFFFFFFFF 0 = 0xFFFFFFFF := by decide

theorem witness_FirComputesTheConvolution :
    ∃ r, 1 ≤ bandS1.tapCount ∧ bandS1.dl = [] ∧ bandS1.cur = 0
      ∧ (firRun Config.params (fun _ => 65536) bandS1 [5, 7])[1]? = some r ∧ r.y = 7 :=
  ⟨_, by decide, by decide, by decide, rfl, by decide⟩

/-- The smallest and the largest tap. -/
theorem witness_FirAccumulatorCannotOverflow :
    Config.params.legal = true ∧ 1 ≤ bandS1.tapCount ∧ bandS1.tapCount ≤ Config.params.ntMax
      ∧ (∀ k, k < bandS1.tapCount → FitsSigned Config.params.coefW ((fun _ => -131072 : Nat → Int) k))
      ∧ (∀ k, k < bandS1.tapCount → FitsSigned Config.params.coefW ((fun _ => 131071 : Nat → Int) k)) := by
  unfold FitsSigned
  decide

theorem witness_FirWritesOneDelayWord : CursorInv bandS1 ∧ bandS1.tapCount ≤ 1 := by
  unfold CursorInv DelayInv
  decide

/-- The shortest and the longest window. -/
theorem witness_PushReturnsTheWindowMaximum :
    Config.params.legal = true ∧ 1 ≤ Config.params.dqCap
      ∧ (∃ r, (swmRun Config.params 1 100 [] [9, 2])[1]? = some r ∧ r.wm = 2)
      ∧ ∃ r, (swmRun Config.params Config.params.dqCap 0xFFFFFFFF [] [9, 2])[1]? = some r ∧ r.wm = 9 :=
  ⟨by decide, by decide, ⟨_, rfl, by decide⟩, ⟨_, rfl, by decide⟩⟩

theorem witness_DequeStaysWithinTheWindow :
    Config.params.legal = true ∧ 1 ≤ 2 ∧ 2 ≤ Config.params.dqCap
      ∧ (swmRun Config.params 2 0 [] [9, 8, 7]).map (fun r => r.dq.length) = [1, 2, 2] := by decide

theorem witness_PushKeepsValuesDecreasing : StrictlyDecreasing [⟨7, 10⟩, ⟨4, 11⟩] := by
  unfold StrictlyDecreasing
  decide

/-- The guard fires and does not fire. -/
theorem witness_CapacityGuardDropsTheOldest :
    (evict 4 5 7 [⟨9, 7⟩, ⟨8, 7⟩, ⟨7, 7⟩, ⟨6, 7⟩]).length = smallDeque.dqCap
      ∧ (evict 4 6 7 [⟨9, 7⟩, ⟨8, 7⟩, ⟨7, 7⟩, ⟨6, 7⟩]).length ≠ smallDeque.dqCap
      ∧ 1 ≤ smallDeque.dqCap ∧ [(⟨9, 7⟩ : DqEntry)].length ≤ smallDeque.dqCap := by decide

theorem witness_EvictionRemovesStaleAndDominated :
    StrictlyDecreasing [⟨7, 10⟩, ⟨4, 11⟩, ⟨2, 12⟩]
      ∧ evict 3 2 13 [⟨7, 10⟩, ⟨4, 11⟩, ⟨2, 12⟩] = [⟨4, 11⟩] := by
  unfold StrictlyDecreasing
  decide

/-- A peak and a sample that is none. -/
theorem witness_PeakStepFollowsTheFiveSteps :
    (pkdStep Config.params 44100 bandS1 5 5).peak = true
      ∧ (pkdStep Config.params 44100 bandS1 4 5).peak = false := by decide

/-- The largest tracker value, sensitivity and floor. -/
theorem witness_ThresholdFitsItsWidth :
    let B := { bandS1 with sens := 0xFFFF, floor := 0x7FFFFFFF }
    Config.params.legal = true ∧ FitsSigned Config.params.tvW 268435455
      ∧ B.sens.toNat ≤ Config.params.sensMax ∧ B.floor.toNat ≤ Config.params.floorMax := by
  unfold FitsSigned
  decide

theorem witness_NegativeSamplesNeverPeak : (-1 : Int) < 0 := by decide

/-- Armed and over, armed and not over, holdoff at its boundary. -/
theorem witness_DebounceMachineTransitions :
    Config.params.legal = true ∧ debounceState bandS1 = .armed
      ∧ overThreshold Config.params 5 (threshold Config.params bandS1 5) = true
      ∧ overThreshold Config.params 4 (threshold Config.params bandS1 5) = false
      ∧ debounceState { bandS1 with sslp := 8820, minDist := 8820 } = .holdoff := by decide

/-- Peaks at samples 0 and 2, `MINDIST` 0. -/
theorem witness_SuccessivePeaksAreSpaced :
    ∃ ri rj rk, Config.params.legal = true
      ∧ (pkdRun Config.params 44100 bandS1 [(5, 5), (5, 5), (5, 5)])[0]? = some ri
      ∧ (pkdRun Config.params 44100 bandS1 [(5, 5), (5, 5), (5, 5)])[2]? = some rj
      ∧ (pkdRun Config.params 44100 bandS1 [(5, 5), (5, 5), (5, 5)])[1]? = some rk
      ∧ ri.peak = true ∧ rj.peak = true ∧ rk.peak = false :=
  ⟨_, _, _, by decide, rfl, rfl, rfl, by decide, by decide, by decide⟩

theorem witness_CountersBetweenPeaks :
    ∃ r, Config.params.legal = true
      ∧ (pkdRun Config.params 44100 bandS1 [(4, 5), (3, 5)])[1]? = some r
      ∧ ∀ q ∈ (pkdRun Config.params 44100 bandS1 [(4, 5), (3, 5)]).take 2, q.peak = false :=
  ⟨_, by decide, rfl, by decide⟩

/-- The largest rate; the counter saturated. -/
theorem witness_BpmEstimateIsBounded :
    Config.params.legal = true ∧ (1048575 : Word).toNat ≤ Config.params.fsMax
      ∧ (pkdStep Config.params 1048575 bandS1 5 5).peak = true ∧ bandS1.sslp.toNat = Config.params.cntMax
      ∧ 2 * (60 * (1048575 : Word).toNat) < Config.params.cntMax ∧ Config.params.fsW ≤ 25 := by decide

theorem witness_SampleIsRefusedInConfig : State.reset.mode = .config := by decide

theorem witness_configLegal : ConfigLegal Config.params bankS1 := by
  unfold ConfigLegal BandLegal
  decide

theorem witness_SampleRunsEachBandOnItsOwn :
    bankS1.params.legal = true ∧ bankS1.mode = .run ∧ ConfigLegal bankS1.params bankS1 :=
  ⟨by decide, by decide, witness_configLegal⟩

theorem witness_BandPipelineRunsTheThreeUnits :
    ∀ k, k < bandS1.tapCount →
      (fun _ => 65536 : Nat → Int) k = (fun k => if k = 0 then 65536 else 1 : Nat → Int) k := by decide

theorem witness_EventRecordHoldsTheEvent :
    Config.params.legal = true ∧ 1 ≤ (1 : Word).toNat ∧ 7 < Config.params.nbMax := by decide

/-- The bank of V-BBO-1 with the floor of L1-4. -/
def bankFloor : State := { bankS1 with bands := State.reset.bands.set 0 { bandS1 with floor := 1 } }

theorem witness_AllZeroStreamNeverPeaks :
    bankFloor.params.legal = true ∧ bankFloor.mode = .run ∧ ConfigLegal bankFloor.params bankFloor
      ∧ ∀ b, b < bankFloor.nbands.toNat →
          (bankFloor.band b).dl = [] ∧ 1 ≤ (bankFloor.band b).floor.toNat := by
  unfold ConfigLegal BandLegal
  decide

/-- The three cases of CFGW; an unmapped and a read-only word both. -/
theorem witness_CfgwWritesOrRefuses :
    bankS1.mode = .run ∧ State.reset.mode = .config
      ∧ configReg Config.params 0x0105 = none
      ∧ configReg Config.params 0x0000 = some .status ∧ ConfigReg.status.writable = false
      ∧ configReg Config.params 0x2FFF = some (.coef 7 1023)
      ∧ (ConfigReg.coef 7 1023).writable = true := by decide

theorem witness_CfgrReadsOrRefuses :
    configReg Config.params 0x0004 = none ∧ configReg Config.params 0x017D = some (.dqlen 7) := by decide

theorem witness_InitConstructsOrRefuses :
    bankS1.mode = .run
      ∧ State.reset.mode = .config ∧ validate Config.params State.reset = some ⟨.fsRange, 0xFF⟩
      ∧ idleS1.mode = .config ∧ validate Config.params idleS1 = none := by decide

theorem witness_StopLeavesRunOrRefuses : bankS1.mode = .run ∧ State.reset.mode = .config := by decide

theorem witness_AddressMapIsOneToOne :
    Config.params.legal = true ∧ (ConfigReg.coef 7 1023).present Config.params = true
      ∧ configReg Config.params 0x2FFF = some (.coef 7 1023) := by decide

theorem witness_WriteChangesOneWord :
    Config.params.legal = true ∧ (ConfigReg.coef 7 1023).present Config.params = true
      ∧ (ConfigReg.coef 7 1023).writable = true
      ∧ (ConfigReg.wlen 0).present Config.params = true ∧ (ConfigReg.wlen 0).writable = true
      ∧ (∀ b, b < Config.slots → Memory.wf (idleS1.band b).coef = true)
      ∧ (ConfigReg.coef 0 0).present Config.params = true := by decide

/-- The smallest and the largest coefficient. -/
theorem witness_CoefficientReadsBackSigned :
    Config.params.legal = true ∧ FitsSigned Config.params.coefW (-131072)
      ∧ FitsSigned Config.params.coefW 131071 := by
  unfold FitsSigned
  decide

theorem witness_bandInv : ∀ b, b < Config.slots → BandInv Config.params (bankS1.band b) := by
  unfold BandInv CoefInv DelayInv DequeInv StrictlyDecreasing FitsSigned
  decide

theorem witness_RegisterReadsAndLayouts :
    bankS1.params.legal = true ∧ 7 < Config.slots ∧ BandInv bankS1.params (bankS1.band 7) :=
  ⟨by decide, by decide, witness_bandInv 7 (by decide)⟩

theorem witness_StepRunsTheDecodedCommand :
    (presentWord State.reset 0x5000000000000000).host = .command 0x5000000000000000 :: []
      ∧ decode 0x5000000000000000 = .command (.stop 0 0)
      ∧ (presentWord State.reset 0x6000000000000000).host = .command 0x6000000000000000 :: []
      ∧ decode 0x6000000000000000 = .illegal (.reservedOpcode 6)
      ∧ decodeTableWord 64 0x5000000000000000 = some (.stop 0 0) ∧ State.reset.host = [] := by decide

theorem witness_ResetEventRestoresResetValues :
    { bankS1 with host := [.reset] }.host = .reset :: [] ∧ bankS1.params.sensFrac < 32 := by decide

theorem witness_ResetStateIsTheResetTable :
    Params.reference.legal = true ∧ Params.reference.sensFrac < 32 := by decide

theorem witness_stateInv : StateInv bankS1 := by
  refine ⟨by decide, witness_bandInv, by unfold CfgerrInv; decide, fun _ => ⟨witness_configLegal, by decide, ?_⟩⟩
  unfold CursorInv DelayInv
  decide

theorem witness_stateInv_idle : StateInv idleS1 :=
  ⟨by decide, witness_bandInv, by unfold CfgerrInv; decide, fun h => by cases h⟩

/-- A coefficient write whose one response word is not transferred, and is. -/
theorem witness_ResetCutsACommandShort :
    { idleS1 with host := [.commandCutByReset 0x1000100000004000 0] }.host
        = .commandCutByReset 0x1000100000004000 0 :: []
      ∧ StateInv { idleS1 with host := [.commandCutByReset 0x1000100000004000 0] }
      ∧ StateInv { idleS1 with host := [.commandCutByReset 0x1000100000004000 1] }
      ∧ ∃ u, acceptWord 0x1000100000004000 { idleS1 with host := [] } = .next u
        ∧ u.out = idleS1.out ++ [⟨0x00000000, true⟩] ∧ [(⟨0x00000000, true⟩ : RspWord)].length ≤ 1 :=
  ⟨rfl, witness_stateInv_idle, witness_stateInv_idle, _, rfl, rfl, by decide⟩

theorem witness_StepKeepsTheInvariant :
    StateInv (presentWord bankS1 0x4000753000000000)
      ∧ ∃ t, step (presentWord bankS1 0x4000753000000000) = .next t ∧ t.out.length = 5 :=
  ⟨witness_stateInv, _, rfl, by decide⟩

theorem witness_ResetMeetsTheInvariant : Params.reference.legal = true := by decide

theorem witness_StepAlwaysCompletes : StateInv bankS1 := witness_stateInv

theorem witness_OnlyInitAndStopChangeMode :
    (∃ t, exec (.init 0 0) idleS1 = .next t ∧ t.mode ≠ idleS1.mode)
      ∧ ∃ t, exec (.stop 0 0) bankS1 = .next t ∧ t.mode ≠ bankS1.mode :=
  ⟨⟨_, rfl, by decide⟩, ⟨_, rfl, by decide⟩⟩

theorem witness_ConfigurationIsFrozenInRun :
    bankS1.params.legal = true ∧ bankS1.mode = .run ∧ ∃ t, exec (.cfgw 0x0002 1) bankS1 = .next t :=
  ⟨by decide, by decide, _, rfl⟩

theorem witness_OnlyCfgwWritesCoefficients :
    bankS1.params.legal = true ∧ (∃ t, exec (.sample 1 0) bankS1 = .next t)
      ∧ ∀ addr data, Instr.sample 1 0 ≠ .cfgw addr data :=
  ⟨by decide, ⟨_, rfl⟩, fun _ _ h => by cases h⟩

/-- A refused command, and a failed INIT that changes `CFGERR`. -/
theorem witness_RejectionChangesNothing :
    State.reset.params.legal = true
      ∧ (∃ t, acceptWord 0x5000000000000000 State.reset = .next t
        ∧ t.out = State.reset.out ++ markLast (responseWords State.reset.params (.nak .badState)))
      ∧ ∃ t, acceptWord 0x3000000000000000 State.reset = .next t
        ∧ t.out = State.reset.out ++ markLast (responseWords State.reset.params (.nak .cfgInvalid))
        ∧ t.cfgerr ≠ State.reset.cfgerr :=
  ⟨by decide, ⟨_, rfl, rfl⟩, _, rfl, rfl, by decide⟩

/-- The bank of V-BBO-1 with `n` entries in its deque that a smaller value with the same index does not
evict. -/
def bankFull (n : Nat) : State :=
  { bankS1 with bands := State.reset.bands.set 0 { bandS1 with dq := List.replicate n ⟨9, 5⟩ } }

theorem evict_replicate (n : Nat) :
    evict 66150 1 5 (List.replicate n ⟨9, 5⟩) = List.replicate n ⟨9, 5⟩ := by
  have keep : ∀ p : DqEntry → Bool, p ⟨9, 5⟩ = false →
      (List.replicate n ⟨9, 5⟩).dropWhile p = List.replicate n ⟨9, 5⟩ := by
    intro p hp
    cases n with
    | zero => rfl
    | succ n => rw [List.replicate_succ, List.dropWhile_cons_of_neg (by rw [hp]; decide)]
  rw [evict, dropStale, keep _ (by decide), dropDominated, List.reverse_replicate, keep _ (by decide),
    List.reverse_replicate]

theorem bankFull_guardFired (n : Nat) (h : n = Config.params.dqCap) :
    ∃ t, exec (.sample 1 5) (bankFull n) = .next t ∧ t.dqovf = true := by
  have hd : sampleDefined Config.params (bankFull n) = true := rfl
  refine ⟨processSample Config.params 1 5 (bankFull n), ?_, ?_⟩
  · show sampleWith Config.params 1 5 (bankFull n) = _
    simp only [sampleWith, show (bankFull n).mode = .run from rfl, hd, if_true]
  · have hn : (bankFull n).nbands.toNat = 1 := rfl
    refine (sampleLoop_spec Config.params 1 5 (bankFull n) (hn ▸ by decide)).2.2.1.2
      (.inr ⟨0, hn ▸ by decide, ?_⟩)
    have hv : trackerInput Config.params
        (firApply Config.params (coefAt Config.params 0 0 bandS1.coef) bandS1 1).y = 1 := by decide
    have hg : (bandOutcome Config.params 1 5 (bankFull n) 0).guardFired =
        dequeFull Config.params (evict 66150 (trackerInput Config.params
          (firApply Config.params (coefAt Config.params 0 0 bandS1.coef) bandS1 1).y) 5
          (List.replicate n ⟨9, 5⟩)) := rfl
    rw [hg, hv, evict_replicate, dequeFull, List.length_replicate, h, beq_self_eq_true]

/-- A clause each: `CFGERR` written, `DQOVF` cleared, `DQOVF` set. -/
theorem witness_StatusRegistersHaveTheirWriters :
    (State.reset.params.legal = true ∧ idleS1.params.legal = true
        ∧ (bankFull Config.params.dqCap).params.legal = true)
      ∧ (∃ t, exec (.init 0 0) State.reset = .next t ∧ t.cfgerr ≠ State.reset.cfgerr)
      ∧ (∃ t, exec (.init 0 0) { idleS1 with dqovf := true } = .next t ∧ t.dqovf = false)
      ∧ (bankFull Config.params.dqCap).dqovf = false
      ∧ ∃ t, exec (.sample 1 5) (bankFull Config.params.dqCap) = .next t ∧ t.dqovf = true :=
  ⟨⟨by decide, by decide, rfl⟩, ⟨_, rfl, by decide⟩, ⟨_, rfl, by decide⟩, rfl, bankFull_guardFired _ rfl⟩

theorem witness_ObservingDoesNotDisturb :
    (∃ t, runWords [0x4000753000000000, 0x2000010B00000000, 0x4000000000000001] bankS1 = .next t)
      ∧ onlyObserves 0x2000010B00000000 = true := ⟨⟨_, rfl⟩, by decide⟩

theorem witness_IndexObligationKeepsTheWindow :
    bankS1.params.legal = true ∧ bankS1.mode = .run ∧ ConfigLegal bankS1.params bankS1
      ∧ bankS1.dqovf = false
      ∧ (∀ b, b < bankS1.nbands.toNat → WindowInv 0xFFFFFFFF (bankS1.band b))
      ∧ ∃ t, exec (.sample 5 (0xFFFFFFFF + 1)) bankS1 = .next t :=
  ⟨by decide, by decide, witness_configLegal, by decide, by unfold WindowInv; decide, _, rfl⟩

theorem witness_BringUpReachesRun :
    State.reset.params.legal = true ∧ State.reset.mode = .config
      ∧ 1 ≤ (1048575 : Word).toNat ∧ (1048575 : Word).toNat ≤ State.reset.params.fsMax
      ∧ 1 ≤ (1024 : Word).toNat ∧ (1024 : Word).toNat ≤ State.reset.params.ntMax
      ∧ 1 ≤ (131072 : Word).toNat ∧ (131072 : Word).toNat ≤ State.reset.params.dqCap
      ∧ (0xFFFF : Word).toNat ≤ State.reset.params.sensMax
      ∧ (0x7FFFFFFF : Word).toNat ≤ State.reset.params.floorMax := by decide

/-- A line of each form, at the ends of its ranges. -/
theorem witness_AssemblerExpandsEachSourceLine :
    Config.params.legal = true
      ∧ ([ Source.nop, Source.init, Source.stop, Source.cfgw (.number 0xFFFF) 4294967295,
           Source.cfgw (.name (.coef 7 1023)) (-2147483648), Source.cfgr (.number 0),
           Source.cfgr (.name (.dqlen 7)), Source.sample (-32768) 4294967295, Source.coef 7 1023 (-131072),
           Source.taps 7 [1, -1], Source.taps 0 [], Source.rdthr 7, Source.burst 0 [],
           Source.burst 4294967295 [32767, -32768] ].all
          fun c => c.wellFormed Config.params) = true := by decide

end Sys2Proof.Tests
end

/-! ## Proofs: the legal parameter records (R8) -/

namespace Sys2Proof

/-- R8 with one named field for each constraint, in R8's order. -/
structure Params.IsLegal (P : Params) : Prop where
  nbMax_pos : 1 ≤ P.nbMax
  nbMax_le : P.nbMax ≤ 8
  sampleW_eq : P.sampleW = 16
  coefW_ge : 2 ≤ P.coefW
  coefW_le : P.coefW ≤ 32
  coefFrac_lt : P.coefFrac < P.coefW
  ntMax_pos : 1 ≤ P.ntMax
  ntMax_le : P.ntMax ≤ 1024
  idxW_eq : P.idxW = 32
  dqCap_pos : 1 ≤ P.dqCap
  dqCap_lt : P.dqCap < 2 ^ 31
  sensW_pos : 1 ≤ P.sensW
  sensW_le : P.sensW ≤ 32
  sensFrac_le : P.sensFrac ≤ P.sensW
  floorW_pos : 1 ≤ P.floorW
  floorW_le : P.floorW ≤ 31
  cntW_eq : P.cntW = 32
  posW_eq : P.posW = 32
  fsW_pos : 1 ≤ P.fsW
  fsW_le : P.fsW ≤ 26
  ntMax_le_pow : P.ntMax ≤ 2 ^ P.ntLog
  ntLog_least : P.ntLog = 0 ∨ 2 ^ (P.ntLog - 1) < P.ntMax
  accW_eq : P.accW = P.sampleW + P.coefW + P.ntLog
  yW_eq : P.yW = P.accW - P.coefFrac
  tvW_eq : P.tvW = P.yW + 1
  thrW_eq : P.thrW = max (P.tvW - 1 + P.sensW) (P.floorW + P.sensFrac)
  thrW_le : P.thrW ≤ 64
  bpmW_eq : P.bpmW = P.fsW + 6
  msW_eq : P.msW = P.posW + 10

/-- The model's check of R8 passes exactly on the records that meet every constraint. -/
theorem Params.legal_iff (P : Params) : P.legal = true ↔ P.IsLegal := by
  constructor
  · intro h
    simp only [Params.legal, Params.rangesLegal, Params.widthsLegal, Bool.and_eq_true,
      decide_eq_true_eq, and_assoc] at h
    obtain ⟨h1, h2, h3, h4, h5, h6, h7, h8, h9, h10, h11, h12, h13, h14, h15, h16, h17, h18, h19, h20,
      h21, h22, h23, h24, h25, h26, h27, h28, h29⟩ := h
    exact ⟨h1, h2, h3, h4, h5, h6, h7, h8, h9, h10, h11, h12, h13, h14, h15, h16, h17, h18, h19, h20,
      h21, h22, h23, h24, h25, h26, h27, h28, h29⟩
  · intro h
    cases h
    simp_all [Params.legal, Params.rangesLegal, Params.widthsLegal]

/-- A legal record has no more bands than the state has slots (log 13). -/
theorem Params.IsLegal.nbMax_le_slots {P : Params} (hP : P.IsLegal) : P.nbMax ≤ Config.slots :=
  hP.nbMax_le

/-- The sign bit of a filtered sample and the fraction it was cut from make up the accumulator: the widths
of R8 that R76 rests on. -/
theorem Params.IsLegal.accW_sub_two {P : Params} (hP : P.IsLegal) :
    P.accW - 2 = (P.yW - 2) + P.coefFrac ∧ P.accW - 2 = P.ntLog + (P.coefW - 1 + 15) := by
  have := hP.sampleW_eq
  have := hP.coefW_ge
  have := hP.coefFrac_lt
  have := hP.accW_eq
  have := hP.yW_eq
  omega

end Sys2Proof

/-! ## Proofs: the pseudocode primitives (R11 to R14) -/

namespace Sys2Proof.Machine

/-- `q` is at most `floor_shr(v, n)` exactly when `q * 2^n` is at most `v` (R11). -/
theorem le_floorShr_iff (q v : Int) (n : Nat) : q ≤ floorShr v n ↔ q * 2 ^ n ≤ v :=
  Int.le_ediv_iff_mul_le (by positivity)

/-- On a two's complement pattern of any width `floor_shr` is the arithmetic shift right (R11). -/
theorem floorShr_toInt {w : Nat} (p : BitVec w) (n : Nat) : floorShr p.toInt n = (p.sshiftRight n).toInt := by
  rw [BitVec.toInt_sshiftRight, Int.shiftRight_eq_div_pow, floorShr, Nat.cast_pow, Nat.cast_ofNat]

/-- A bound of `2^(m+n)` on the value is a bound of `2^m` on `floor_shr(v, n)`. -/
theorem abs_floorShr_le {v : Int} {m n : Nat} (h : |v| ≤ 2 ^ (m + n)) : |floorShr v n| ≤ 2 ^ m := by
  obtain ⟨hlo, hhi⟩ := abs_le.1 h
  have hpos : (0 : Int) < 2 ^ n := by positivity
  rw [pow_add] at hlo hhi
  refine abs_le.2 ⟨(le_floorShr_iff _ _ _).2 (by linarith), ?_⟩
  have hmul : floorShr v n * 2 ^ n ≤ 2 ^ m * 2 ^ n := le_trans ((le_floorShr_iff _ v n).1 le_rfl) hhi
  exact le_of_mul_le_mul_right hmul hpos

/-- `rhu(n, d)` as the quotient that R12 defines: the two inequalities that pin it. -/
theorem rhu_bounds (n : Nat) {d : Nat} (hd : 1 ≤ d) :
    2 * (rhu n d * d) ≤ 2 * n + d ∧ 2 * n + d < 2 * (rhu n d * d) + 2 * d := by
  have hle : rhu n d * (2 * d) ≤ 2 * n + d := Nat.div_mul_le_self _ _
  have hlt : 2 * n + d < rhu n d * (2 * d) + 2 * d := Nat.lt_div_mul_add (by omega)
  have hassoc : rhu n d * (2 * d) = 2 * (rhu n d * d) := by ring
  omega

/-- A rounded quotient is no greater than its dividend. -/
theorem rhu_le (n : Nat) {d : Nat} (hd : 1 ≤ d) : rhu n d ≤ n := by
  obtain ⟨hle, -⟩ := rhu_bounds n hd
  by_contra hgt
  have : (n + 1) * d ≤ rhu n d * d := Nat.mul_le_mul_right d (by omega)
  have : n * 1 ≤ n * d := Nat.mul_le_mul_left n hd
  have : (n + 1) * d = n * d + d := by ring
  omega

/-- `sat_inc` as a number (R13). -/
theorem toNat_satInc {P : Params} (hP : P.IsLegal) (v : Word) :
    (satInc P v).toNat = min (v.toNat + 1) P.cntMax := by
  have hmax : P.cntMax < 2 ^ 32 := by simp [Params.cntMax, hP.cntW_eq]
  rw [satInc, BitVec.toNat_ofNat, Nat.mod_eq_of_lt (lt_of_le_of_lt (min_le_right _ _) hmax)]

/-- `wrap_inc` as a number (R13). -/
theorem toNat_wrapInc {P : Params} (hP : P.IsLegal) (v : Word) :
    (wrapInc P v).toNat = (v.toNat + 1) % 2 ^ P.posW := by
  rw [wrapInc, BitVec.toNat_ofNat, hP.posW_eq, Nat.mod_mod]

/-- `age` as the difference of the two indices modulo `2^32` (R14). -/
theorem age_eq_emod (idx eidx : Index) : (age idx eidx : Int) = ((idx.toNat : Int) - eidx.toNat) % 2 ^ 32 := by
  have := idx.isLt
  have := eidx.isLt
  rw [age, BitVec.toNat_sub]
  omega

/-- `age` of an index that has not wrapped (R14). -/
theorem age_eq_sub {idx eidx : Index} (h : eidx.toNat ≤ idx.toNat) : age idx eidx = idx.toNat - eidx.toNat :=
  BitVec.toNat_sub_of_le h

/-- Settles O9: the quotient's defining property, and the shift as division by a power of two. -/
theorem floorShiftIsFloorDivision : Obligations.FloorShiftIsFloorDivision := by
  refine ⟨fun v n => ⟨?_, ?_⟩, fun w p n => floorShr_toInt p n, ?_⟩
  · exact (le_floorShr_iff _ v n).1 le_rfl
  · exact fun q hq => (le_floorShr_iff q v n).2 hq
  · decide

/-- Settles O10. -/
theorem roundHalfUpIsNearest : Obligations.RoundHalfUpIsNearest :=
  ⟨fun n _ hd => rhu_bounds n hd, by decide⟩

/-- Settles O11. -/
theorem counterIncrements : Obligations.CounterIncrements := by
  intro P v hP
  have hL := (Params.legal_iff P).1 hP
  exact ⟨toNat_satInc hL v, toNat_wrapInc hL v⟩

/-- Settles O12. -/
theorem ageIsDifferenceModulo : Obligations.AgeIsDifferenceModulo := by
  intro P idx eidx hP
  rw [((Params.legal_iff P).1 hP).idxW_eq]
  exact ⟨age_eq_emod idx eidx, age_eq_sub⟩

end Sys2Proof.Machine

/-! ## Proofs: the command port (R55, R60, R121, R138) -/

namespace Sys2Proof.Machine

/-- A word that decodes runs its command (R60). -/
theorem acceptWord_command {w : CmdWord} {i : Instr} (h : decode w = .command i) (s : State) :
    acceptWord w s = exec i s := by
  simp [acceptWord, h]

/-- An illegal word is rejected (R60, R121). -/
theorem acceptWord_illegal {w : CmdWord} {why : DecodeRefusal} (h : decode w = .illegal why) (s : State) :
    acceptWord w s = .next (rejectIllegal s.params s) := by
  simp [acceptWord, h]

/-- The rejection of an illegal word sends `nak(ILLEGAL)` and changes nothing else (R121, R123). -/
theorem rejectIllegal_eq (P : Params) (s : State) :
    rejectIllegal P s = { s with out := s.out ++ [⟨0xF0000001, true⟩] } := rfl

/-- A step with no event left waits (R138; log 7). -/
theorem step_of_host_nil {s : State} (h : s.host = []) : step s = .next s := by
  simp [step, serveHost, h]

/-- A step answers the command word at the head of the host's list. -/
theorem step_of_host_command {s : State} {w : CmdWord} {rest : List HostEvent}
    (h : s.host = .command w :: rest) : step s = acceptWord w { s with host := rest } := by
  simp [step, serveHost, h]

/-- A step answers the reset event at the head of the host's list (R140). -/
theorem step_of_host_reset {s : State} {rest : List HostEvent} (h : s.host = .reset :: rest) :
    step s = .next (resetEvent s.params { s with host := rest }) := by
  simp [step, serveHost, h]

/-- A step answers the cut command at the head of the host's list (R144). -/
theorem step_of_host_cut {s : State} {w : CmdWord} {taken : Nat} {rest : List HostEvent}
    (h : s.host = .commandCutByReset w taken :: rest) :
    step s = acceptWordCut w taken { s with host := rest } := by
  simp [step, serveHost, h]

/-- A command cut short completes only if the whole command does, and then leaves `cutByReset` of it
(R144). -/
theorem acceptWordCut_eq_next {w : CmdWord} {taken : Nat} {s t : State}
    (h : acceptWordCut w taken s = .next t) :
    ∃ u, acceptWord w s = .next u ∧ t = cutByReset s.params s u taken := by
  unfold acceptWordCut at h
  cases hw : acceptWord w s with
  | next u => rw [hw] at h; cases h; exact ⟨u, rfl, rfl⟩
  | fault r => rw [hw] at h; cases h
  | refused r => rw [hw] at h; cases h

/-- A table word of 64 bits is the command word with that value. -/
theorem tableWord_64 (n : Nat) : tableWord 64 n = BitVec.ofNat 64 n :=
  BitVec.eq_of_toNat_eq (by simp [tableWord])

/-- A presented table word of 64 bits is the next word the step answers (log 6). -/
theorem step_withFetchWord (s : State) (n : Nat) :
    step (s.withFetchWord 64 n) = acceptWord (BitVec.ofNat 64 n) s := by
  rw [State.withFetchWord, tableWord_64]
  exact step_of_host_command rfl

/-- The instruction read from a table word is the one the command word decodes to. -/
theorem decodeTableWord_eq_some {n : Nat} {i : Instr} (h : decodeTableWord 64 n = some i) :
    decode (BitVec.ofNat 64 n) = .command i := by
  rw [decodeTableWord, tableWord_64] at h
  cases hd : decode (BitVec.ofNat 64 n) with
  | command j => rw [hd] at h; cases h; rfl
  | illegal why => rw [hd] at h; cases h

/-- Settles O45, one law of the command port a clause. -/
theorem stepRunsTheDecodedCommand : Obligations.StepRunsTheDecodedCommand := by
  intro s w rest
  refine ⟨fun hhost => ⟨step_of_host_command hhost, ?_, ?_⟩, step_withFetchWord s, ?_, step_of_host_nil⟩
  · intro i hi
    rw [step_of_host_command hhost, acceptWord_command hi]
  · intro why hwhy
    rw [step_of_host_command hhost, acceptWord_illegal hwhy, rejectIllegal_eq]
  · intro n i hi
    rw [step_withFetchWord, acceptWord_command (decodeTableWord_eq_some hi)]

end Sys2Proof.Machine

/-! ## Proofs: the widths of unit FIR (R27, R28, R74, R76) -/

namespace Sys2Proof.Machine

/-- A value that fits `n` bits is at most `2^(n-1)` in absolute value. -/
theorem abs_le_of_fitsSigned {n : Nat} {v : Int} (h : FitsSigned n v) : |v| ≤ 2 ^ (n - 1) := by
  obtain ⟨hlo, hhi⟩ := h
  exact abs_le.2 ⟨hlo, hhi.le⟩

/-- A value of absolute value at most `2^m` fits any width that has more than `m` bits beside the sign. -/
theorem fitsSigned_of_abs_le {m n : Nat} {v : Int} (h : |v| ≤ 2 ^ m) (hmn : m < n - 1) : FitsSigned n v := by
  obtain ⟨hlo, hhi⟩ := abs_le.1 h
  have hpow : (2 : Int) ^ m < 2 ^ (n - 1) := pow_lt_pow_right₀ (by norm_num) hmn
  exact ⟨by linarith, by linarith⟩

/-- `sext_n` gives a value that fits `n` bits (00_scope section 5). -/
theorem fitsSigned_sextN {n : Nat} (hn : 1 ≤ n) (p : Nat) : FitsSigned n (sextN n p) := by
  obtain ⟨m, rfl⟩ : ∃ m, n = m + 1 := ⟨n - 1, by omega⟩
  have hlt : p % 2 ^ (m + 1) < 2 ^ (m + 1) := Nat.mod_lt _ (by positivity)
  have hcast : ((2 ^ m : Nat) : Int) = 2 ^ m := by norm_num
  unfold FitsSigned sextN
  simp only [Nat.add_sub_cancel]
  rw [pow_succ] at hlt ⊢
  split <;> constructor <;> omega

/-- Every coefficient word reads as a value of `COEF_W` bits, written or not (R27, R142). -/
theorem fitsSigned_coefAt {P : Params} (hP : P.IsLegal) {m : Memory Int} (hm : CoefInv P m)
    (powerOn b k : Nat) : FitsSigned P.coefW (coefAt P powerOn b m k) := by
  have hpos : 1 ≤ P.coefW := le_trans (by norm_num) hP.coefW_ge
  unfold coefAt
  cases hr : Memory.read m k with
  | none => exact fitsSigned_sextN hpos _
  | some v => exact (hm.2 (k, v) (Memory.mem_of_read hr)).2

/-- A write of a tap slot keeps the invariant of the coefficient memory (R27, R49). -/
theorem coefInv_coefWrite {P : Params} (hP : P.IsLegal) {m : Memory Int} (hm : CoefInv P m) {k : Nat}
    (hk : k < P.ntMax) (v : Word) : CoefInv P (coefWrite P m k v) := by
  obtain ⟨hwf, hmem⟩ := hm
  refine ⟨Memory.wf_write k _ hwf, fun c hc => ?_⟩
  rcases Memory.mem_write hc with rfl | hc
  · exact ⟨hk, fitsSigned_sextN (le_trans (by norm_num) hP.coefW_ge) _⟩
  · exact hmem c hc

/-- A write inside the buffer keeps the invariant of the delay line (R28). -/
theorem delayInv_delayWrite {n : Nat} {m : Memory SampleWord} (hm : DelayInv n m) {j : Nat} (hj : j < n)
    (x : SampleWord) : DelayInv n (delayWrite m j x) := by
  obtain ⟨hwf, hmem⟩ := hm
  obtain ⟨-, -, hwf', hmem'⟩ := delayWrite_spec m j x hwf
  refine ⟨hwf', fun c hc => ?_⟩
  rcases hmem' c hc with rfl | hc
  · exact hj
  · exact hmem c hc

/-- An empty delay line meets its invariant. -/
theorem delayInv_nil (n : Nat) : DelayInv n [] := ⟨rfl, by simp⟩

/-- A 16-bit sample is at most `2^15` in absolute value. -/
theorem abs_sampleValue_le (x : SampleWord) : |sampleValue x| ≤ 2 ^ 15 :=
  abs_le_of_fitsSigned ⟨BitVec.le_toInt x, BitVec.toInt_lt⟩

/-- One product of the convolution, for taps of `COEF_W` bits (R74). -/
theorem abs_firTerm_le {P : Params} {tap : Nat → Int} (B : Band) {k : Nat} (h : FitsSigned P.coefW (tap k)) :
    |firTerm tap B k| ≤ 2 ^ (P.coefW - 1 + 15) := by
  rw [firTerm, abs_mul, pow_add]
  exact mul_le_mul (abs_le_of_fitsSigned h) (abs_sampleValue_le _) (abs_nonneg _) (by positivity)

/-- The accumulator cannot overflow: at most `2^NT_LOG` products of one size (R74). -/
theorem abs_firAcc_le {P : Params} (hP : P.IsLegal) {tap : Nat → Int} {B : Band} (hT : B.tapCount ≤ P.ntMax)
    (htap : ∀ k, k < B.tapCount → FitsSigned P.coefW (tap k)) : |firAcc tap B| ≤ 2 ^ (P.accW - 2) := by
  have hcount : (B.tapCount : Int) ≤ 2 ^ P.ntLog := by exact_mod_cast le_trans hT hP.ntMax_le_pow
  have hterm : ∀ k ∈ Finset.range B.tapCount, |firTerm tap B k| ≤ 2 ^ (P.coefW - 1 + 15) :=
    fun k hk => abs_firTerm_le B (htap k (Finset.mem_range.1 hk))
  calc |firAcc tap B|
      = |∑ k ∈ Finset.range B.tapCount, firTerm tap B k| := by rw [firAcc_eq_sum]
    _ ≤ ∑ k ∈ Finset.range B.tapCount, |firTerm tap B k| := Finset.abs_sum_le_sum_abs _ _
    _ ≤ (Finset.range B.tapCount).card • (2 : Int) ^ (P.coefW - 1 + 15) := Finset.sum_le_card_nsmul _ _ _ hterm
    _ = B.tapCount * 2 ^ (P.coefW - 1 + 15) := by simp
    _ ≤ 2 ^ P.ntLog * 2 ^ (P.coefW - 1 + 15) := by gcongr
    _ = 2 ^ (P.accW - 2) := by rw [hP.accW_sub_two.2, pow_add 2 P.ntLog]

/-- The filtered sample stays within `2^(Y_W-2)` (R76). -/
theorem abs_firApply_y_le {P : Params} (hP : P.IsLegal) {tap : Nat → Int} {B : Band} (x : SampleWord)
    (hT : B.tapCount ≤ P.ntMax) (htap : ∀ k, k < B.tapCount → FitsSigned P.coefW (tap k)) :
    |(firApply P tap B x).y| ≤ 2 ^ (P.yW - 2) := by
  rw [firApply_y]
  exact abs_floorShr_le (hP.accW_sub_two.1 ▸ abs_firAcc_le (B := firStore B x) hP hT htap)

/-- The tracker input has the absolute value of the filtered sample, whatever `TRACK_ABS` is (R106). -/
theorem abs_trackerInput (P : Params) (y : Int) : |trackerInput P y| = |y| := by
  unfold trackerInput
  split
  · exact abs_abs y
  · rfl

/-- What FIR hands the tracker fits `TV_W` bits (R29, R76). -/
theorem fitsSigned_trackerInput {P : Params} (hP : P.IsLegal) {y : Int} (hy : |y| ≤ 2 ^ (P.yW - 2)) :
    FitsSigned P.tvW (trackerInput P y) := by
  have := hP.tvW_eq
  have := hP.yW_eq
  have := hP.accW_eq
  have := hP.coefFrac_lt
  have := hP.sampleW_eq
  exact fitsSigned_of_abs_le (abs_trackerInput P y ▸ hy) (by omega)

end Sys2Proof.Machine

/-! ## Proofs: the deque of unit SWM (R29, R30 (a), R85) -/

namespace Sys2Proof.Machine

/-- What eviction leaves of decreasing values is above the incoming value (R84). -/
theorem lt_of_mem_evict {w : Nat} {v : Int} {idx : Index} {d : List DqEntry} (hd : StrictlyDecreasing d)
    {e : DqEntry} (he : e ∈ evict w v idx d) : v < e.val := by
  have hstale : StrictlyDecreasing (dropStale w idx d) := List.Pairwise.sublist (List.dropWhile_sublist _) hd
  rw [evict, dropDominated_eq_filter v _ hstale] at he
  simpa using (List.mem_filter.1 he).2

/-- A push keeps the values strictly decreasing, for any index (R30 (a)). -/
theorem strictlyDecreasing_swmPush (P : Params) (w : Nat) {d : List DqEntry} (v : Int) (idx : Index)
    (hd : StrictlyDecreasing d) : StrictlyDecreasing (swmPush P w d v idx).dq := by
  have hroom : (makeRoom P (evict w v idx d)).Sublist (evict w v idx d) := makeRoom_sublist P _
  rw [swmPush_dq]
  refine List.pairwise_append.2 ⟨List.Pairwise.sublist (hroom.trans (evict_sublist w v idx d)) hd,
    List.pairwise_singleton _ _, fun older holder younger hyounger => ?_⟩
  rw [List.mem_singleton.1 hyounger]
  exact lt_of_mem_evict hd (hroom.subset holder)

/-- The deque never outgrows `DQ_CAP` (R85). -/
theorem length_swmPush_le (P : Params) (w : Nat) {d : List DqEntry} (v : Int) (idx : Index)
    (hcap : 1 ≤ P.dqCap) (hd : d.length ≤ P.dqCap) : (swmPush P w d v idx).dq.length ≤ P.dqCap := by
  have hkept : (evict w v idx d).length ≤ P.dqCap := le_trans (evict_sublist w v idx d).length_le hd
  rw [swmPush_dq, List.length_append]
  exact length_makeRoom P hcap hkept

/-- A push of a value of `TV_W` bits keeps the invariant of the deque (R29, R30 (a)). -/
theorem dequeInv_swmPush {P : Params} (hP : P.IsLegal) (w : Nat) {d : List DqEntry} {v : Int} (idx : Index)
    (hd : DequeInv P d) (hv : FitsSigned P.tvW v) : DequeInv P (swmPush P w d v idx).dq := by
  obtain ⟨hlen, hdec, hfits⟩ := hd
  refine ⟨length_swmPush_le P w v idx hP.dqCap_pos hlen, strictlyDecreasing_swmPush P w v idx hdec,
    fun e he => ?_⟩
  rcases mem_swmPush he with he | rfl
  · exact hfits e he
  · exact hv

/-- The window maximum is the value of an entry of the deque (R86). -/
theorem exists_mem_swmPush_wm (P : Params) (w : Nat) (d : List DqEntry) (v : Int) (idx : Index) :
    ∃ e ∈ (swmPush P w d v idx).dq, e.val = (swmPush P w d v idx).wm := by
  obtain ⟨e, hhead, hval⟩ := Option.map_eq_some_iff.1 (swmPush_wm P w d v idx)
  exact ⟨e, List.mem_of_mem_head? hhead, hval⟩

/-- The window maximum of values of `TV_W` bits has `TV_W` bits. -/
theorem fitsSigned_swmPush_wm {P : Params} (hP : P.IsLegal) (w : Nat) {d : List DqEntry} {v : Int}
    (idx : Index) (hd : DequeInv P d) (hv : FitsSigned P.tvW v) :
    FitsSigned P.tvW (swmPush P w d v idx).wm := by
  obtain ⟨-, -, hfits⟩ := dequeInv_swmPush hP w idx hd hv
  obtain ⟨e, he, hval⟩ := exists_mem_swmPush_wm P w d v idx
  exact hval ▸ hfits e he

/-- An empty deque meets its invariant. -/
theorem dequeInv_nil (P : Params) : DequeInv P [] := ⟨Nat.zero_le _, List.Pairwise.nil, by simp⟩

end Sys2Proof.Machine

/-! ## Proofs: the widths of unit PKD (R33, R34, R93, R100) -/

namespace Sys2Proof.Machine

/-- The threshold of a legal configuration fits `THR_W` bits (R34, R93). -/
theorem threshold_lt {P : Params} (hP : P.IsLegal) {B : Band} {wm : Int} (hwm : FitsSigned P.tvW wm)
    (hsens : B.sens.toNat ≤ P.sensMax) (hfloor : B.floor.toNat ≤ P.floorMax) :
    threshold P B wm < 2 ^ P.thrW := by
  have hsens' : (B.sens.toNat : Int) < 2 ^ P.sensW := by
    exact_mod_cast lt_of_le_of_lt hsens (Nat.sub_lt (by positivity) one_pos)
  have hfloor' : (B.floor.toNat : Int) < 2 ^ P.floorW := by
    exact_mod_cast lt_of_le_of_lt hfloor (Nat.sub_lt (by positivity) one_pos)
  have hprod : wm * B.sens.toNat < 2 ^ P.thrW := by
    calc wm * B.sens.toNat
        ≤ 2 ^ (P.tvW - 1) * B.sens.toNat := by gcongr; exact hwm.2.le
      _ < 2 ^ (P.tvW - 1) * 2 ^ P.sensW := by gcongr
      _ = 2 ^ (P.tvW - 1 + P.sensW) := (pow_add ..).symm
      _ ≤ 2 ^ P.thrW := pow_le_pow_right₀ (by norm_num) (hP.thrW_eq ▸ le_max_left ..)
  have hmin : (B.floor.toNat : Int) * 2 ^ P.sensFrac < 2 ^ P.thrW := by
    calc (B.floor.toNat : Int) * 2 ^ P.sensFrac
        < 2 ^ P.floorW * 2 ^ P.sensFrac := by gcongr
      _ = 2 ^ (P.floorW + P.sensFrac) := (pow_add ..).symm
      _ ≤ 2 ^ P.thrW := pow_le_pow_right₀ (by norm_num) (hP.thrW_eq ▸ le_max_right ..)
  have hcast : (threshold P B wm : Int) < 2 ^ P.thrW := threshold_cast P B wm ▸ max_lt hprod hmin
  exact_mod_cast hcast

/-- The estimate of a legal rate over a nonzero counter fits `BPM_W` bits (R33, R100). -/
theorem bpmEstimate_lt {P : Params} (hP : P.IsLegal) {fs sslp : Word} (hfs : fs.toNat ≤ P.fsMax)
    (hsslp : 1 ≤ sslp.toNat) : bpmEstimate fs sslp < 2 ^ P.bpmW := by
  have hle : bpmEstimate fs sslp ≤ 60 * fs.toNat := rhu_le _ hsslp
  have hpos : 0 < 2 ^ P.fsW := by positivity
  rw [hP.bpmW_eq, pow_add]
  rw [Params.fsMax] at hfs
  omega

/-- `THR[b]` after a step is the threshold of that step, on either path (R92). -/
theorem pkdStep_thr (P : Params) (fs : Word) (B : Band) (y wm : Int) :
    (pkdStep P fs B y wm).band.thr = threshold P B wm := by
  cases h : isPeak P B y wm
  · rw [pkdStep_nonPeak P fs B y wm h]
  · rw [pkdStep_peak P fs B y wm h]

/-- `BPM[b]` after a step is the old one, or, with a nonzero counter, the estimate (R96, R97, R100). -/
theorem pkdStep_bpm_cases (P : Params) (fs : Word) (B : Band) (y wm : Int) :
    (pkdStep P fs B y wm).band.bpm = B.bpm
      ∨ (1 ≤ B.sslp.toNat ∧ (pkdStep P fs B y wm).band.bpm = bpmEstimate fs B.sslp) := by
  cases h : isPeak P B y wm
  case false => exact .inl (by rw [pkdStep_nonPeak P fs B y wm h])
  case true =>
    obtain ⟨-, hdeb⟩ := (isPeak_iff P B y wm).1 h
    exact .inr ⟨by omega, by rw [pkdStep_peak P fs B y wm h]⟩

end Sys2Proof.Machine

/-! ## Proofs: one band's pipeline keeps the invariants of its slot (R36, R37, R105) -/

namespace Sys2Proof.Machine

/-- The threshold and the estimate that a pipeline leaves, from the window maximum of its own push (R105). -/
theorem bandPipeline_thr_bpm (P : Params) (fs : Word) (tap : Nat → Int) (B : Band) (x : SampleWord)
    (idx : Index) :
    let B' := (bandPipeline P fs tap B x idx).band
    B'.thr = threshold P B (swmPush P B.wlen.toNat B.dq (trackerInput P (firApply P tap B x).y) idx).wm
      ∧ (B'.bpm = B.bpm ∨ (1 ≤ B.sslp.toNat ∧ B'.bpm = bpmEstimate fs B.sslp)) :=
  ⟨pkdStep_thr P fs _ _ _, pkdStep_bpm_cases P fs _ _ _⟩

/-- A pipeline keeps the widths of its slot (R27 to R29, R33, R34). -/
theorem bandInv_bandPipeline {P : Params} (hP : P.IsLegal) {fs : Word} (hfs : fs.toNat ≤ P.fsMax)
    {tap : Nat → Int} (htap : ∀ k, FitsSigned P.coefW (tap k)) {B : Band} (hB : BandInv P B)
    (hL : BandLegal P B) (x : SampleWord) (idx : Index) :
    BandInv P (bandPipeline P fs tap B x idx).band := by
  obtain ⟨hcoef, hdl, hcur, hdq, -, hbpm⟩ := hB
  obtain ⟨hT1, hT, -, -, hsens, hfloor⟩ := hL
  obtain ⟨hthr', hbpm'⟩ := bandPipeline_thr_bpm P fs tap B x idx
  obtain ⟨thr, sslp, pos, bpm, hband⟩ := bandPipeline_frame P fs tap B x idx
  have hv : FitsSigned P.tvW (trackerInput P (firApply P tap B x).y) :=
    fitsSigned_trackerInput hP (abs_firApply_y_le hP x hT fun k _ => htap k)
  rw [hband] at hthr' hbpm' ⊢
  refine ⟨hcoef, delayInv_delayWrite hdl hcur x, lt_of_lt_of_le (Nat.mod_lt _ hT1) hT,
    dequeInv_swmPush hP _ idx hdq hv, ?_, ?_⟩
  · rw [hthr']
    exact threshold_lt hP (fitsSigned_swmPush_wm hP _ idx hdq hv) hsens hfloor
  · rcases hbpm' with h | ⟨hsslp, h⟩
    · exact h ▸ hbpm
    · exact h ▸ bpmEstimate_lt hP hfs hsslp

/-- A pipeline keeps the legal ranges of its slot, because it writes none of its configuration (R37). -/
theorem bandLegal_bandPipeline {P : Params} (fs : Word) (tap : Nat → Int) {B : Band} (hL : BandLegal P B)
    (x : SampleWord) (idx : Index) : BandLegal P (bandPipeline P fs tap B x idx).band := by
  obtain ⟨thr, sslp, pos, bpm, hband⟩ := bandPipeline_frame P fs tap B x idx
  rw [hband]
  exact hL

/-- A pipeline keeps the cursor and the delay line inside the buffer (R28). -/
theorem cursorInv_bandPipeline (P : Params) (fs : Word) (tap : Nat → Int) {B : Band} (hC : CursorInv B)
    (x : SampleWord) (idx : Index) : CursorInv (bandPipeline P fs tap B x idx).band := by
  obtain ⟨hcur, hdl⟩ := hC
  obtain ⟨thr, sslp, pos, bpm, hband⟩ := bandPipeline_frame P fs tap B x idx
  rw [hband]
  exact ⟨Nat.mod_lt _ (by omega), delayInv_delayWrite hdl hcur x⟩

end Sys2Proof.Machine

/-! ## Proofs: every command, every reset event and every step keep the invariant of the block -/

namespace Sys2Proof.Machine

/-- The invariant speaks of the block alone: what the host does next and has received, and the count of free
choices, do not matter. -/
theorem stateInv_congr {s t : State} (hs : StateInv s)
    (h : t = { s with host := t.host, out := t.out, freeCount := t.freeCount }) : StateInv t := by
  rw [h]
  exact hs

/-- A response changes nothing that the invariant speaks of (R56). -/
theorem stateInv_respond {s : State} (hs : StateInv s) (P : Params) (r : Response) :
    StateInv (respond P r s) := hs

/-- The checks of INIT pass exactly on a legal configuration (R118, R20 to R25). -/
theorem validate_eq_none_iff (P : Params) (s : State) : validate P s = none ↔ ConfigLegal P s := by
  unfold validate ConfigLegal
  split
  case isTrue hfs =>
    simp only [reduceCtorEq, false_iff]
    omega
  case isFalse hfs =>
    split
    case isTrue hnb =>
      simp only [reduceCtorEq, false_iff]
      omega
    case isFalse hnb =>
      have hband : ∀ B, validateBand P B = none ↔ BandLegal P B := fun B => by
        simp only [validateBand_none_iff, BandLegal, Nat.one_le_iff_ne_zero]
      simp only [List.findSome?_eq_none_iff, List.mem_range, Option.map_eq_none_iff, hband]
      constructor
      · exact fun h => ⟨by omega, by omega, by omega, by omega, h⟩
      · exact fun ⟨_, _, _, _, h⟩ => h

/-- Every cause of R125 is at most 8. -/
theorem cfgerr_cause_le (e : ConfigError) : (e.word.extractLsb' 0 8).toNat ≤ 8 := by
  obtain ⟨cause, band⟩ := e
  have hcode : (ConfigError.word ⟨cause, band⟩).extractLsb' 0 8 = cause.code :=
    BitVec.extractLsb'_append_eq_right
  rw [hcode]
  cases cause <;> decide

/-- A named word of a band block belongs to that band (R42). -/
theorem bandReg_present {P : Params} {b off : Nat} {r : ConfigReg} (h : bandReg b off = some r)
    (hb : b < P.nbMax) : r.present P = true := by
  unfold bandReg at h
  split at h <;> cases h <;> simpa [ConfigReg.present] using hb

/-- A mapped address names a word that exists in the record's block (R42). -/
theorem configReg_present {P : Params} {addr : CfgAddr} {r : ConfigReg} (h : configReg P addr = some r) :
    r.present P = true := by
  unfold configReg at h
  dsimp only at h
  split_ifs at h with h0 h1 h2 h3 hblock hcoef
  case pos | pos | pos | pos => cases h; rfl
  · exact bandReg_present h (by omega)
  · cases h
    simp [ConfigReg.present, hcoef]

/-- In CONFIG, replacing a slot by a band within its widths keeps the invariant. -/
theorem stateInv_setBand {s : State} (hs : StateInv s) (hm : s.mode = .config) (b : Nat) {B : Band}
    (hB : b < Config.slots → BandInv s.params B) : StateInv (s.setBand b B) := by
  obtain ⟨hP, hbands, herr, -⟩ := hs
  refine ⟨hP, fun c hc => ?_, herr, fun hrun => ?_⟩
  · by_cases hcb : c = b
    · subst hcb
      rw [band_setBand_same s B hc]
      exact hB hc
    · rw [band_setBand_other s B hcb]
      exact hbands c hc
  · rw [setBand_mode, hm] at hrun
    cases hrun

/-- In CONFIG, a write to a word that exists keeps the invariant (R46, R49). -/
theorem stateInv_cfgWrite {s : State} (hs : StateInv s) (hm : s.mode = .config) {r : ConfigReg}
    (hr : r.present s.params = true) (v : Word) : StateInv (cfgWrite s.params s r v) := by
  have hnorun : s.mode ≠ .run := by rw [hm]; decide
  have ⟨hP, hbands, herr, _⟩ := hs
  cases r
  case fs => exact ⟨hP, hbands, herr, fun h => absurd h hnorun⟩
  case nbands => exact ⟨hP, hbands, herr, fun h => absurd h hnorun⟩
  case ntaps b => exact stateInv_setBand hs hm b fun hb => hbands b hb
  case wlen b => exact stateInv_setBand hs hm b fun hb => hbands b hb
  case sens b => exact stateInv_setBand hs hm b fun hb => hbands b hb
  case floor b => exact stateInv_setBand hs hm b fun hb => hbands b hb
  case minDist b => exact stateInv_setBand hs hm b fun hb => hbands b hb
  case coef b k =>
    have hk : k < s.params.ntMax := by
      simp only [ConfigReg.present, Bool.and_eq_true, decide_eq_true_eq] at hr
      exact hr.2
    refine stateInv_setBand hs hm b fun hb => ?_
    obtain ⟨hcoef, hrest⟩ := hbands b hb
    exact ⟨coefInv_coefWrite ((Params.legal_iff _).1 hP) hcoef hk v, hrest⟩
  all_goals exact hs

/-- CFGW keeps the invariant (R115). -/
theorem stateInv_cfgwWith {s : State} (hs : StateInv s) (addr : CfgAddr) (data : Word) :
    StateInv (cfgwWith s.params addr data s) := by
  rcases cfgwWith_cases s.params addr data s with ⟨-, h⟩ | ⟨-, -, h⟩ | ⟨r, hm, hr, h⟩
  · exact h ▸ stateInv_respond hs _ _
  · exact h ▸ stateInv_respond hs _ _
  · exact h ▸ stateInv_respond (stateInv_cfgWrite hs hm (configReg_present (writableReg_eq_some.1 hr).1) data) _ _

/-- CFGR keeps the invariant (R116). -/
theorem stateInv_cfgrWith {s : State} (hs : StateInv s) (addr : CfgAddr) :
    StateInv (cfgrWith s.params addr s) := by
  rcases cfgrWith_cases s.params addr s with ⟨-, h⟩ | ⟨r, -, h⟩ <;> exact h ▸ stateInv_respond hs _ _

/-- A constructed slot is within its widths, whatever its runtime state was (R119). -/
theorem bandInv_constructBand {P : Params} (hP : P.IsLegal) {B : Band} (hB : BandInv P B) :
    BandInv P (constructBand P B) := by
  obtain ⟨hcoef, -⟩ := hB
  exact ⟨hcoef, delayInv_nil _, hP.ntMax_pos, dequeInv_nil P, Nat.two_pow_pos _, Nat.two_pow_pos _⟩

/-- A successful INIT enters RUN with all that RUN guarantees (R117, R119). -/
theorem stateInv_construct {s : State} (hs : StateInv s) (hL : ConfigLegal s.params s) :
    StateInv (construct s.params s) := by
  obtain ⟨hlegal, hbands, -, -⟩ := hs
  obtain ⟨hfs1, hfs, hnb1, hnb, hbl⟩ := hL
  have hP := (Params.legal_iff _).1 hlegal
  have hband : ∀ b, b < s.nbands.toNat →
      (construct s.params s).band b = constructBand s.params (s.band b) := fun b hb =>
    band_construct s.params s (lt_of_lt_of_le hb (le_trans hnb hP.nbMax_le_slots))
  refine ⟨hlegal, fun b hb => ?_, by simp [CfgerrInv], fun _ => ⟨⟨hfs1, hfs, hnb1, hnb, fun b hb => ?_⟩, rfl,
    fun b hb => ?_⟩⟩
  · rw [construct_params, band_construct s.params s hb]
    exact bandInv_constructBand hP (hbands b hb)
  · rw [construct_params, hband b hb]
    exact hbl b hb
  · rw [hband b hb]
    exact ⟨(hbl b hb).1, delayInv_nil _⟩

/-- INIT keeps the invariant (R117). -/
theorem stateInv_initWith {s : State} (hs : StateInv s) : StateInv (initWith s.params s) := by
  rcases initWith_cases s.params s with ⟨-, h⟩ | ⟨e, hm, -, h⟩ | ⟨-, hv, h⟩
  · exact h ▸ stateInv_respond hs _ _
  · obtain ⟨hP, hbands, -, -⟩ := hs
    rw [h]
    refine ⟨hP, hbands, cfgerr_cause_le e, fun hrun => ?_⟩
    rw [cfgError_mode, hm] at hrun
    cases hrun
  · exact h ▸ stateInv_respond (stateInv_construct hs ((validate_eq_none_iff _ _).1 hv)) _ _

/-- STOP keeps the invariant (R120). -/
theorem stateInv_stopWith {s : State} (hs : StateInv s) : StateInv (stopWith s.params s) := by
  rcases stopWith_cases s.params s with ⟨-, h⟩ | ⟨-, h⟩
  · exact h ▸ stateInv_respond hs _ _
  · obtain ⟨hP, hbands, herr, -⟩ := hs
    rw [h]
    exact ⟨hP, hbands, herr, fun hrun => by cases hrun⟩

/-- What a configured band is left with by its pipeline in RUN: within its widths, its configuration still
legal, its cursor inside the buffer. -/
theorem bandOutcome_keeps {s : State} (hs : StateInv s) (hm : s.mode = .run) (x : SampleWord) (idx : Index)
    {b : Nat} (hb : b < s.nbands.toNat) :
    BandInv s.params (bandOutcome s.params x idx s b).band
      ∧ BandLegal s.params (bandOutcome s.params x idx s b).band
      ∧ CursorInv (bandOutcome s.params x idx s b).band := by
  obtain ⟨hlegal, hbands, -, hrun⟩ := hs
  obtain ⟨⟨-, hfs, -, hnb, hbl⟩, -, hcursor⟩ := hrun hm
  have hP := (Params.legal_iff _).1 hlegal
  have hB : BandInv s.params (s.band b) := hbands b (lt_of_lt_of_le hb (le_trans hnb hP.nbMax_le_slots))
  have ⟨hcoef, _⟩ := hB
  exact ⟨bandInv_bandPipeline hP hfs (fitsSigned_coefAt hP hcoef _ _) hB (hbl b hb) x idx,
    bandLegal_bandPipeline _ _ (hbl b hb) x idx, cursorInv_bandPipeline _ _ _ (hcursor b hb) x idx⟩

/-- SAMPLE in RUN keeps the invariant (R104). -/
theorem stateInv_processSample {s : State} (hs : StateInv s) (hm : s.mode = .run) (x : SampleWord)
    (idx : Index) :
    StateInv (processSample s.params x idx s) ∧ (processSample s.params x idx s).params = s.params := by
  have hkeeps := fun b hb => bandOutcome_keeps hs hm x idx (b := b) hb
  obtain ⟨hlegal, hbands, herr, hrun⟩ := hs
  obtain ⟨⟨hfs1, hfs, hnb1, hnb, -⟩, herr0, -⟩ := hrun hm
  have hslots := le_trans hnb ((Params.legal_iff _).1 hlegal).nbMax_le_slots
  obtain ⟨hst, hband, -⟩ := sampleLoop_spec s.params x idx s hslots
  rw [processSample]
  generalize sampleLoop s.params x idx s = acc at hst hband ⊢
  obtain ⟨t, mask, events⟩ := acc
  dsimp only at hst hband ⊢
  have hparams : t.params = s.params := by rw [hst]
  have hnbands : t.nbands = s.nbands := by rw [hst]
  have hcfgerr : t.cfgerr = s.cfgerr := by rw [hst]
  have hrate : t.fs = s.fs := by rw [hst]
  have hconf : ∀ b, b < t.nbands.toNat → b < s.nbands.toNat := by simp [hnbands]
  have hout : ∀ b, b < s.nbands.toNat → t.band b = (bandOutcome s.params x idx s b).band :=
    fun b hb => by rw [hband, if_pos hb]
  refine ⟨stateInv_respond ?_ _ _, hparams⟩
  unfold StateInv RunInv ConfigLegal CfgerrInv
  simp only [hparams, hcfgerr, hrate, hnbands]
  refine ⟨hlegal, fun b hb => ?_, herr, fun _ => ⟨⟨hfs1, hfs, hnb1, hnb, ?_⟩, herr0, ?_⟩⟩
  · by_cases hlt : b < s.nbands.toNat
    · rw [hout b hlt]
      exact (hkeeps b hlt).1
    · rw [hband, if_neg hlt]
      exact hbands b hb
  · exact fun b hb => hout b hb ▸ (hkeeps b hb).2.1
  · exact fun b hb => hout b hb ▸ (hkeeps b hb).2.2

/-- Every command keeps the invariant and the parameter record (R39). -/
theorem stateInv_exec {i : Instr} {s t : State} (hs : StateInv s) (h : exec i s = .next t) :
    StateInv t ∧ t.params = s.params := by
  cases i with
  | nop a d => cases h; exact ⟨stateInv_respond hs _ _, rfl⟩
  | cfgw addr data =>
    cases h
    refine ⟨stateInv_cfgwWith hs addr data, ?_⟩
    rcases cfgwWith_cases s.params addr data s with ⟨-, h⟩ | ⟨-, -, h⟩ | ⟨r, -, -, h⟩ <;> simp [h]
  | cfgr addr d =>
    cases h
    refine ⟨stateInv_cfgrWith hs addr, ?_⟩
    rcases cfgrWith_cases s.params addr s with ⟨-, h⟩ | ⟨r, -, h⟩ <;> simp [h]
  | init a d =>
    cases h
    refine ⟨stateInv_initWith hs, ?_⟩
    rcases initWith_cases s.params s with ⟨-, h⟩ | ⟨e, -, -, h⟩ | ⟨-, -, h⟩ <;> simp [h]
  | sample x idx =>
    change sampleWith s.params x idx s = .next t at h
    rcases sampleWith_cases s.params x idx s with ⟨-, h'⟩ | ⟨hm, -, h'⟩ | ⟨-, -, h'⟩
    · rw [h'] at h; cases h
      exact ⟨stateInv_respond hs _ _, rfl⟩
    · rw [h'] at h; cases h
      exact stateInv_processSample hs hm x idx
    · rw [h'] at h; cases h
  | stop a d =>
    cases h
    refine ⟨stateInv_stopWith hs, ?_⟩
    rcases stopWith_cases s.params s with ⟨-, h⟩ | ⟨-, h⟩ <;> simp [h]

/-- Every accepted command word keeps the invariant and the parameter record (R60). -/
theorem stateInv_acceptWord {w : CmdWord} {s t : State} (hs : StateInv s) (h : acceptWord w s = .next t) :
    StateInv t ∧ t.params = s.params := by
  cases hd : decode w with
  | command i =>
    rw [acceptWord_command hd] at h
    exact stateInv_exec hs h
  | illegal why =>
    rw [acceptWord_illegal hd] at h
    cases h
    exact ⟨stateInv_respond hs _ _, rfl⟩

/-- A reset event leads to a state that meets the invariant (R140 to R142). -/
theorem stateInv_resetEvent {s : State} (hs : StateInv s) : StateInv (resetEvent s.params s) := by
  obtain ⟨hlegal, hbands, -, -⟩ := hs
  refine ⟨hlegal, fun b hb => ?_, by simp [CfgerrInv], fun hrun => by cases hrun⟩
  obtain ⟨hcoef, -⟩ := hbands b hb
  rw [resetEvent_params, band_resetEvent s.params s hb]
  exact ⟨hcoef, delayInv_nil _, ((Params.legal_iff _).1 hlegal).ntMax_pos, dequeInv_nil _, Nat.two_pow_pos _,
    Nat.two_pow_pos _⟩

/-- Everything a cut command can leave: the reset state of the state before or of the state after, the words
sent and the count of free choices aside (R144; log 9). -/
theorem cutByReset_cases (P : Params) (before after : State) (taken : Nat) :
    ∃ kept, (kept = before ∨ kept = after)
      ∧ ∃ out freeCount, cutByReset P before after taken
          = { resetEvent P kept with out := out, freeCount := freeCount } := by
  refine ⟨_, ?_, _, _, rfl⟩
  split
  · exact .inr rfl
  · exact .inl rfl

/-- A cut command leads to a state that meets the invariant, because both states it can keep the coefficient
memory of do (R144). -/
theorem stateInv_cutByReset {s u : State} (hs : StateInv s) (hu : StateInv u) (hp : u.params = s.params)
    (taken : Nat) :
    StateInv (cutByReset s.params s u taken) ∧ (cutByReset s.params s u taken).params = s.params := by
  obtain ⟨kept, hkept, out, freeCount, h⟩ := cutByReset_cases s.params s u taken
  have hk : StateInv kept ∧ kept.params = s.params := by
    rcases hkept with rfl | rfl
    · exact ⟨hs, rfl⟩
    · exact ⟨hu, hp⟩
  obtain ⟨hinv, hparams⟩ := hk
  rw [h]
  refine ⟨?_, hparams⟩
  rw [← hparams]
  exact stateInv_congr (stateInv_resetEvent hinv) rfl

/-- Settles O49, by the kind of the host's next event and, for a command word, by the command. -/
theorem stepKeepsTheInvariant : Obligations.StepKeepsTheInvariant := by
  intro s t hs h
  match hhost : s.host with
  | [] =>
    rw [step_of_host_nil hhost] at h
    cases h
    exact ⟨hs, rfl⟩
  | .command w :: rest =>
    rw [step_of_host_command hhost] at h
    exact stateInv_acceptWord (s := { s with host := rest }) hs h
  | .reset :: rest =>
    rw [step_of_host_reset hhost] at h
    cases h
    exact ⟨stateInv_resetEvent (s := { s with host := rest }) hs, rfl⟩
  | .commandCutByReset w taken :: rest =>
    rw [step_of_host_cut hhost] at h
    obtain ⟨u, hu, rfl⟩ := acceptWordCut_eq_next h
    obtain ⟨hinv, hparams⟩ := stateInv_acceptWord (s := { s with host := rest }) hs hu
    exact stateInv_cutByReset (s := { s with host := rest }) hs hinv hparams taken

end Sys2Proof.Machine

/-! ## Proofs: the values reset gives (R40, R141, R142) -/

namespace Sys2Proof.Machine

/-- `SENS_ONE` fits the register where `SENS_FRAC` is below 32 (R40; log 17). -/
theorem toNat_reset_sens {P : Params} (h : P.sensFrac < 32) : (Band.reset P).sens.toNat = 2 ^ P.sensFrac := by
  have hlt : P.sensOne < 2 ^ 32 := Nat.pow_lt_pow_right (by norm_num) h
  simp only [Band.reset, BitVec.toNat_ofNat, Nat.mod_eq_of_lt hlt]
  rfl

/-- The saturation value of the counters as a register word (R9, R40). -/
theorem reset_sslp {P : Params} (hP : P.IsLegal) : (Band.reset P).sslp = 0xFFFFFFFF := by
  simp [Band.reset, Params.cntMax, hP.cntW_eq]

/-- A slot after reset is within its widths (R27 to R29, R33, R34). -/
theorem bandInv_reset {P : Params} (hP : P.IsLegal) : BandInv P (Band.reset P) :=
  ⟨⟨rfl, by simp [Band.reset]⟩, delayInv_nil _, hP.ntMax_pos, dequeInv_nil P, Nat.two_pow_pos _,
    Nat.two_pow_pos _⟩

/-- The block with a legal record meets its invariant after reset. -/
theorem stateInv_resetOf {P : Params} (hlegal : P.legal = true) : StateInv (State.resetOf P) := by
  refine ⟨hlegal, fun b hb => ?_, by simp [CfgerrInv], fun hrun => ?_⟩
  · rw [band_resetOf P hb]
    exact bandInv_reset ((Params.legal_iff P).1 hlegal)
  · rw [resetOf_mode] at hrun
    cases hrun

/-- With the rate at its reset value the first check of INIT fails (R118, R126). -/
theorem validate_of_fs_zero (P : Params) {s : State} (h : s.fs = 0) : validate P s = some ⟨.fsRange, 0xFF⟩ := by
  simp [validate, h]

/-- INIT with a failing check in CONFIG ends with that configuration error (R117). -/
theorem initWith_of_validate_some {P : Params} {s : State} {e : ConfigError} (hm : s.mode = .config)
    (hv : validate P s = some e) : initWith P s = cfgError P e s := by
  simp only [initWith, hm, hv]

/-- Settles O46: the step is the reset event, and each slot is `resetBand` of what it was. -/
theorem resetEventRestoresResetValues : Obligations.ResetEventRestoresResetValues := by
  intro s rest hhost
  refine ⟨_, step_of_host_reset hhost, rfl, fun b hb => ?_⟩
  rw [band_resetEvent _ _ hb]
  exact ⟨rfl, toNat_reset_sens⟩

/-- Settles O47. -/
theorem resetStateIsTheResetTable : Obligations.ResetStateIsTheResetTable := by
  refine ⟨fun P hlegal => ⟨rfl, rfl, rfl, rfl, rfl, rfl, fun b hb => ?_, ?_⟩, rfl, fun b hb => ?_⟩
  · rw [band_resetOf P hb]
    have hP := (Params.legal_iff P).1 hlegal
    exact ⟨rfl, rfl, toNat_reset_sens, rfl, rfl, rfl, rfl, reset_sslp hP, rfl, rfl, rfl⟩
  · have hinit := initWith_of_validate_some (resetOf_mode P) (validate_of_fs_zero P (resetOf_fs P))
    exact congrArg Host.Outcome.next hinit
  · rw [band_reset hb]
    decide

/-- Settles O50. -/
theorem resetMeetsTheInvariant : Obligations.ResetMeetsTheInvariant :=
  ⟨fun _ hlegal => stateInv_resetOf hlegal, stateInv_resetOf (by decide)⟩

end Sys2Proof.Machine

/-! ## Proofs: what a band's pipeline reads and writes (R36, R37, R78, R105, R106) -/

namespace Sys2Proof.Machine

/-- The configuration registers and the coefficient memory of two bands agree (R22 to R27). -/
def SameConfig (B' B : Band) : Prop :=
  B'.ntaps = B.ntaps ∧ B'.wlen = B.wlen ∧ B'.sens = B.sens ∧ B'.floor = B.floor
    ∧ B'.minDist = B.minDist ∧ B'.coef = B.coef

/-- A band agrees with itself. -/
theorem SameConfig.refl (B : Band) : SameConfig B B := ⟨rfl, rfl, rfl, rfl, rfl, rfl⟩

/-- A pipeline writes neither the configuration nor the coefficient memory (R37). -/
theorem sameConfig_bandPipeline (P : Params) (fs : Word) (tap : Nat → Int) (B : Band) (x : SampleWord)
    (idx : Index) : SameConfig (bandPipeline P fs tap B x idx).band B := by
  obtain ⟨thr, sslp, pos, bpm, h⟩ := bandPipeline_frame P fs tap B x idx
  rw [h]
  exact .refl B

/-- FIR reads the taps below the tap count only (R72, R78). -/
theorem firApply_congr (P : Params) {tap tap' : Nat → Int} {B : Band}
    (h : ∀ k, k < B.tapCount → tap k = tap' k) (x : SampleWord) : firApply P tap B x = firApply P tap' B x := by
  have hacc : firAcc tap (firStore B x) = firAcc tap' (firStore B x) := firAcc_congr h
  rw [firApply, firApply, hacc]

/-- So does a pipeline, because only FIR reads taps (R36, R105). -/
theorem bandPipeline_congr (P : Params) (fs : Word) {tap tap' : Nat → Int} {B : Band}
    (h : ∀ k, k < B.tapCount → tap k = tap' k) (x : SampleWord) (idx : Index) :
    bandPipeline P fs tap B x idx = bandPipeline P fs tap' B x idx := by
  rw [bandPipeline, bandPipeline, firApply_congr P h]

/-- Settles O30: FIR leaves the deque, the window length and every runtime register of PKD to the units after
it, so that the three units in order are the pipeline by definition. -/
theorem bandPipelineRunsTheThreeUnits : Obligations.BandPipelineRunsTheThreeUnits := by
  intro P fs tap tap' B x idx htap
  have hcongr := bandPipeline_congr P fs htap x idx
  exact ⟨hcongr, hcongr ▸ rfl, sameConfig_bandPipeline P fs tap B x idx⟩

end Sys2Proof.Machine

/-! ## Proofs: what SAMPLE leaves of the state (R104, R105) -/

namespace Sys2Proof.Machine

/-- Any number of turns of SAMPLE's loop leave everything but the band slots and `DQOVF` alone. -/
theorem foldl_sampleBand_frame (P : Params) (x : SampleWord) (idx : Index) (bs : List Nat) (acc : BankAcc) :
    ∃ bands dqovf,
      (bs.foldl (sampleBand P x idx) acc).st = { acc.st with bands := bands, dqovf := dqovf } := by
  induction bs generalizing acc with
  | nil => exact ⟨_, _, rfl⟩
  | cons b bs ih =>
    obtain ⟨bands, dqovf, h⟩ := ih (sampleBand P x idx acc b)
    exact ⟨bands, dqovf, by rw [List.foldl_cons, h, sampleBand_frame]⟩

/-- SAMPLE in RUN writes the band slots, `DQOVF` and the response channel only. -/
theorem processSample_frame (P : Params) (x : SampleWord) (idx : Index) (s : State) :
    ∃ bands dqovf out,
      processSample P x idx s = { s with bands := bands, dqovf := dqovf, out := out } := by
  obtain ⟨bands, dqovf, h⟩ := foldl_sampleBand_frame P x idx (List.range s.nbands.toNat)
    { st := s, mask := 0, events := [] }
  refine ⟨bands, dqovf, (processSample P x idx s).out, ?_⟩
  simp only [processSample, respond, sampleLoop, h]

@[simp] theorem processSample_mode (P : Params) (x : SampleWord) (idx : Index) (s : State) :
    (processSample P x idx s).mode = s.mode := by
  obtain ⟨_, _, _, h⟩ := processSample_frame P x idx s
  rw [h]

@[simp] theorem processSample_cfgerr (P : Params) (x : SampleWord) (idx : Index) (s : State) :
    (processSample P x idx s).cfgerr = s.cfgerr := by
  obtain ⟨_, _, _, h⟩ := processSample_frame P x idx s
  rw [h]

@[simp] theorem processSample_fs (P : Params) (x : SampleWord) (idx : Index) (s : State) :
    (processSample P x idx s).fs = s.fs := by
  obtain ⟨_, _, _, h⟩ := processSample_frame P x idx s
  rw [h]

@[simp] theorem processSample_nbands (P : Params) (x : SampleWord) (idx : Index) (s : State) :
    (processSample P x idx s).nbands = s.nbands := by
  obtain ⟨_, _, _, h⟩ := processSample_frame P x idx s
  rw [h]

/-- Where SAMPLE's rules are defined, the configured bands are slots of the state (R62; log 13). -/
theorem nbands_le_slots {P : Params} (hP : P.IsLegal) {s : State} (hd : sampleDefined P s = true) :
    s.nbands.toNat ≤ Config.slots := by
  simp only [sampleDefined, Bool.and_eq_true, decide_eq_true_eq] at hd
  obtain ⟨⟨-, hnb⟩, -⟩ := hd
  exact le_trans hnb hP.nbMax_le_slots

/-- Everything a SAMPLE that completes can have done: in CONFIG it was refused, in RUN its rules were defined
and it ran the bands (R104). -/
theorem execSample_cases {x : SampleWord} {idx : Index} {s t : State} (h : exec (.sample x idx) s = .next t) :
    (s.mode = .config ∧ t = nak s.params .badState s)
    ∨ (s.mode = .run ∧ sampleDefined s.params s = true ∧ t = processSample s.params x idx s) := by
  change sampleWith s.params x idx s = .next t at h
  rcases sampleWith_cases s.params x idx s with ⟨hm, h'⟩ | ⟨hm, hd, h'⟩ | ⟨-, -, h'⟩ <;>
    rw [h'] at h <;> cases h
  · exact .inl ⟨hm, rfl⟩
  · exact .inr ⟨hm, hd, rfl⟩

section
variable {P : Params} (hP : P.IsLegal) {s : State} (hd : sampleDefined P s = true) (x : SampleWord) (idx : Index)
include hP hd

/-- Every configured band has run its pipeline on its own slot (R105, R109). -/
theorem band_processSample (b : Nat) :
    (processSample P x idx s).band b
      = if b < s.nbands.toNat then (bandOutcome P x idx s b).band else s.band b := by
  obtain ⟨-, hband, -⟩ := sampleLoop_spec P x idx s (nbands_le_slots hP hd)
  exact hband b

/-- `DQOVF` after a SAMPLE: it was set or a guard fired (R18, R85). -/
theorem dqovf_processSample :
    (processSample P x idx s).dqovf = true
      ↔ s.dqovf = true ∨ ∃ b, b < s.nbands.toNat ∧ (bandOutcome P x idx s b).guardFired = true := by
  obtain ⟨-, -, hdqovf, -⟩ := sampleLoop_spec P x idx s (nbands_le_slots hP hd)
  exact hdqovf

/-- SAMPLE writes no configuration and no coefficient memory (R37). -/
theorem sameConfig_processSample (b : Nat) : SameConfig ((processSample P x idx s).band b) (s.band b) := by
  rw [band_processSample hP hd]
  split
  · exact sameConfig_bandPipeline ..
  · exact .refl _

end

end Sys2Proof.Machine

/-! ## Proofs: everything a command can do to the state (R104, R114 to R120) -/

namespace Sys2Proof.Machine

@[simp] theorem cfgWrite_mode (P : Params) (s : State) (r : ConfigReg) (v : Word) :
    (cfgWrite P s r v).mode = s.mode := by
  obtain ⟨_, _, _, h⟩ := cfgWrite_frame P s r v
  rw [h]

@[simp] theorem cfgWrite_cfgerr (P : Params) (s : State) (r : ConfigReg) (v : Word) :
    (cfgWrite P s r v).cfgerr = s.cfgerr := by
  obtain ⟨_, _, _, h⟩ := cfgWrite_frame P s r v
  rw [h]

@[simp] theorem cfgWrite_dqovf (P : Params) (s : State) (r : ConfigReg) (v : Word) :
    (cfgWrite P s r v).dqovf = s.dqovf := by
  obtain ⟨_, _, _, h⟩ := cfgWrite_frame P s r v
  rw [h]

/-- `Effect s i t`: command `i` leads from `s` to `t` by one of the six effects a command of the block can
have. Tied to the model by `effect_of_exec`. -/
inductive Effect (s : State) : Instr → State → Prop where
  /-- Only a response: NOP, CFGR, and every refusal but that of a failed check (R114, R116, R123). -/
  | answered (i : Instr) (r : Response) : Effect s i (respond s.params r s)
  /-- CFGW wrote a named word (R115). -/
  | wrote (addr : CfgAddr) (data : Word) (r : ConfigReg) (hm : s.mode = .config) :
      Effect s (.cfgw addr data) (respond s.params .ack (cfgWrite s.params s r data))
  /-- A check of INIT failed (R118, R128). -/
  | initFailed (a : BitVec 16) (d : Word) (e : ConfigError) (hm : s.mode = .config) :
      Effect s (.init a d) (cfgError s.params e s)
  /-- INIT succeeded (R117, R119). -/
  | constructed (a : BitVec 16) (d : Word) (hm : s.mode = .config) (hL : ConfigLegal s.params s) :
      Effect s (.init a d) (respond s.params .ack (construct s.params s))
  /-- SAMPLE ran the bands (R104). -/
  | sampled (x : SampleWord) (idx : Index) (hm : s.mode = .run) (hd : sampleDefined s.params s = true) :
      Effect s (.sample x idx) (processSample s.params x idx s)
  /-- STOP left RUN (R120). -/
  | stopped (a : BitVec 16) (d : Word) (hm : s.mode = .run) :
      Effect s (.stop a d) (respond s.params .ack { s with mode := .config })

/-- A command that completes has one of the six effects. -/
theorem effect_of_exec {i : Instr} {s t : State} (h : exec i s = .next t) : Effect s i t := by
  cases i with
  | nop a d => cases h; exact .answered _ _
  | cfgw addr data =>
    cases h
    rcases cfgwWith_cases s.params addr data s with ⟨-, h⟩ | ⟨-, -, h⟩ | ⟨r, hm, -, h⟩ <;> rw [h]
    · exact .answered _ _
    · exact .answered _ _
    · exact .wrote addr data r hm
  | cfgr addr d =>
    cases h
    rcases cfgrWith_cases s.params addr s with ⟨-, h⟩ | ⟨r, -, h⟩ <;> rw [h] <;> exact .answered _ _
  | init a d =>
    cases h
    rcases initWith_cases s.params s with ⟨-, h⟩ | ⟨e, hm, -, h⟩ | ⟨hm, hv, h⟩ <;> rw [h]
    · exact .answered _ _
    · exact .initFailed a d e hm
    · exact .constructed a d hm ((validate_eq_none_iff _ _).1 hv)
  | sample x idx =>
    rcases execSample_cases h with ⟨-, rfl⟩ | ⟨hm, hd, rfl⟩
    · exact .answered _ _
    · exact .sampled x idx hm hd
  | stop a d =>
    cases h
    rcases stopWith_cases s.params s with ⟨-, h⟩ | ⟨hm, h⟩ <;> rw [h]
    · exact .answered _ _
    · exact .stopped a d hm

/-- Settles O38. -/
theorem validateAcceptsExactlyLegal : Obligations.ValidateAcceptsExactlyLegal := validate_eq_none_iff

/-- Settles O52: of the six effects only `constructed` and `stopped` write the mode. -/
theorem onlyInitAndStopChangeMode : Obligations.OnlyInitAndStopChangeMode := by
  intro i s t h hne
  cases effect_of_exec h with
  | answered | initFailed => exact absurd rfl hne
  | wrote => exact absurd (by simp) hne
  | sampled => exact absurd (by simp) hne
  | constructed a d hm hL => exact .inl ⟨⟨a, d, rfl⟩, hm, rfl, hL⟩
  | stopped a d hm => exact .inr ⟨⟨a, d, rfl⟩, hm, rfl⟩

/-- Settles O53: the effects of RUN are an answer, a run of the bands, and a change of the mode. -/
theorem configurationIsFrozenInRun : Obligations.ConfigurationIsFrozenInRun := by
  intro i s t hlegal hrun h
  have hnoconfig : s.mode ≠ .config := by rw [hrun]; decide
  cases effect_of_exec h with
  | answered | stopped => exact ⟨rfl, rfl, fun b _ => SameConfig.refl (s.band b)⟩
  | wrote _ _ _ hm | initFailed _ _ _ hm | constructed _ _ hm _ => exact absurd hm hnoconfig
  | sampled x idx _ hd =>
    have hP := (Params.legal_iff _).1 hlegal
    exact ⟨processSample_fs .., processSample_nbands .., fun b _ => sameConfig_processSample hP hd x idx b⟩

/-- Settles O54: construction and a reset event keep each slot's coefficient memory, and so does a run of the
bands. -/
theorem onlyCfgwWritesCoefficients : Obligations.OnlyCfgwWritesCoefficients := by
  refine ⟨fun i s t hlegal h hnocfgw b hb => ?_, fun s b hb => ?_⟩
  · cases effect_of_exec h with
    | answered | initFailed | stopped => rfl
    | wrote addr data => exact absurd rfl (hnocfgw addr data)
    | constructed => rw [band_respond, band_construct _ _ hb, constructBand_coef]
    | sampled x idx _ hd =>
      obtain ⟨-, -, -, -, -, hcoef⟩ := sameConfig_processSample ((Params.legal_iff _).1 hlegal) hd x idx b
      exact hcoef
  · rw [band_resetEvent _ _ hb, resetBand_coef]

/-- Settles O56: the effects of commands other than INIT keep `CFGERR`, those other than INIT and SAMPLE keep
`DQOVF`, INIT never sets `DQOVF` and SAMPLE never clears it. -/
theorem statusRegistersHaveTheirWriters : Obligations.StatusRegistersHaveTheirWriters := by
  intro i s t hlegal h
  cases effect_of_exec h with
  | answered | wrote | stopped => simp_all
  | initFailed a d | constructed a d => exact ⟨fun _ => ⟨a, d, rfl⟩, fun _ _ => ⟨a, d, rfl⟩, by simp_all⟩
  | sampled x idx _ hd =>
    have hset := dqovf_processSample ((Params.legal_iff _).1 hlegal) hd x idx
    refine ⟨by simp, fun hold hnew => ?_, fun _ _ => ⟨x, idx, rfl⟩⟩
    rw [hset.2 (.inl hold)] at hnew
    cases hnew

end Sys2Proof.Machine

/-! ## Proofs: the deque of unit SWM inside its window (R30, R83, R86, R89) -/

namespace Sys2Proof.Machine

/-- The old-end value of decreasing values is the largest (R86). -/
theorem le_of_mem_of_head? {d : List DqEntry} (hd : StrictlyDecreasing d) {m : Int}
    (hm : d.head?.map DqEntry.val = some m) {e : DqEntry} (he : e ∈ d) : e.val ≤ m := by
  cases d with
  | nil => cases he
  | cons oldest rest =>
    obtain ⟨hlt, -⟩ := List.pairwise_cons.1 hd
    cases hm
    rcases List.mem_cons.1 he with rfl | he
    · exact le_rfl
    · exact (hlt e he).le

/-- Settles O18. -/
theorem pushKeepsValuesDecreasing : Obligations.PushKeepsValuesDecreasing := by
  intro P w d v idx hd
  have hdec := strictlyDecreasing_swmPush P w v idx hd
  have hhead := swmPush_wm P w d v idx
  refine ⟨hdec, ?_, hhead, fun e he => le_of_mem_of_head? hdec hhead he⟩
  rw [swmPush_dq, List.getLast?_concat]

/-- `WindowInv` of a deque alone, with window length `w`: every entry is younger than the window, and entries
get younger towards the new end (R30 (c), (d)). -/
def InWindow (now : Index) (w : Nat) (d : List DqEntry) : Prop :=
  (∀ e ∈ d, age now e.idx < w) ∧ d.Pairwise fun older younger => age now younger.idx < age now older.idx

/-- The window invariant of a band is that of its deque with its window length. -/
theorem windowInv_iff (now : Index) (B : Band) : WindowInv now B ↔ InWindow now B.wlen.toNat B.dq := Iff.rfl

/-- A part of a deque inside the window is inside the window. -/
theorem InWindow.sublist {now : Index} {w : Nat} {d d' : List DqEntry} (h : InWindow now w d)
    (hsub : d'.Sublist d) : InWindow now w d' :=
  ⟨fun e he => h.1 e (hsub.subset he), h.2.sublist hsub⟩

/-- A deque inside its window holds at most `W` entries: its ages are different numbers below `W`
(R30 (f), R89). -/
theorem InWindow.length_le {now : Index} {w : Nat} {d : List DqEntry} (h : InWindow now w d) : d.length ≤ w := by
  obtain ⟨hage, hdec⟩ := h
  have hnodup : (d.map fun e => age now e.idx).Nodup :=
    List.pairwise_map.2 (hdec.imp fun hlt => (ne_of_lt hlt).symm)
  have hrange : (d.map fun e => age now e.idx) ⊆ List.range w := fun a ha => by
    obtain ⟨e, he, rfl⟩ := List.mem_map.1 ha
    exact List.mem_range.2 (hage e he)
  simpa using (List.subperm_of_subset hnodup hrange).length_le

/-- An index is of age 0 at itself (R14). -/
theorem age_self (idx : Index) : age idx idx = 0 := by simp [age]

/-- An age grows by 1 with the index, over a wrap of the index too, as long as it does not reach `2^32`
(R14, R147). -/
theorem age_add_one {now eidx : Index} (h : age now eidx + 1 < 2 ^ 32) : age (now + 1) eidx = age now eidx + 1 := by
  unfold age at h ⊢
  bv_omega

/-- Where ages decrease towards the new end, dropping the stale entries at the old end drops all of them
(R83). -/
theorem age_lt_of_mem_dropStale {w : Nat} {idx : Index} {d : List DqEntry}
    (hd : d.Pairwise fun older younger => age idx younger.idx < age idx older.idx) {e : DqEntry}
    (he : e ∈ dropStale w idx d) : age idx e.idx < w := by
  induction d with
  | nil => cases he
  | cons oldest rest ih =>
    obtain ⟨hyounger, hrest⟩ := List.pairwise_cons.1 hd
    unfold dropStale at he ih
    by_cases hstale : w ≤ age idx oldest.idx
    · rw [List.dropWhile_cons_of_pos (by simpa using hstale)] at he
      exact ih hrest he
    · rw [List.dropWhile_cons_of_neg (by simpa using hstale)] at he
      rcases List.mem_cons.1 he with rfl | he
      · omega
      · have := hyounger e he
        omega

/-- What eviction leaves is in `dropStale`. -/
theorem evict_sublist_dropStale (w : Nat) (v : Int) (idx : Index) (d : List DqEntry) :
    (evict w v idx d).Sublist (dropStale w idx d) := by
  have h := (List.dropWhile_sublist (l := (dropStale w idx d).reverse) fun e => decide (e.val ≤ v)).reverse
  rwa [List.reverse_reverse] at h

/-- With the next index, eviction leaves room for one more entry in the window: what it keeps, with the pushed
pair at the new end, is inside the window (R30 (c), (d), R147). -/
theorem inWindow_evict_concat {now : Index} {w : Nat} {d : List DqEntry} (h : InWindow now w d) (hw : 1 ≤ w)
    (hsmall : w < 2 ^ 32) (v : Int) : InWindow (now + 1) w (evict w v (now + 1) d ++ [⟨v, now + 1⟩]) := by
  obtain ⟨hage, hdec⟩ := h
  have hnext : ∀ e ∈ d, age (now + 1) e.idx = age now e.idx + 1 := fun e he => by
    have := hage e he
    exact age_add_one (by omega)
  have hdec' : d.Pairwise fun older younger => age (now + 1) younger.idx < age (now + 1) older.idx := by
    refine hdec.imp_of_mem fun holder hyounger hlt => ?_
    rw [hnext _ holder, hnext _ hyounger]
    omega
  have hsub := evict_sublist w v (now + 1) d
  refine ⟨fun e he => ?_, List.pairwise_append.2 ⟨hdec'.sublist hsub, List.pairwise_singleton _ _, ?_⟩⟩
  · rcases List.mem_append.1 he with hkept | hpushed
    · exact age_lt_of_mem_dropStale hdec' ((evict_sublist_dropStale w v (now + 1) d).subset hkept)
    · rw [List.mem_singleton.1 hpushed, age_self]
      omega
  · intro older holder younger hyounger
    rw [List.mem_singleton.1 hyounger, age_self, hnext older (hsub.subset holder)]
    omega

/-- While indices are consecutive a push fires no capacity guard and leaves the deque inside its window
(R30, R85, R89). -/
theorem inWindow_swmPush {P : Params} (hP : P.IsLegal) {now : Index} {w : Nat} {d : List DqEntry}
    (h : InWindow now w d) (hw : 1 ≤ w) (hcap : w ≤ P.dqCap) (v : Int) :
    (swmPush P w d v (now + 1)).guardFired = false
      ∧ InWindow (now + 1) w (swmPush P w d v (now + 1)).dq := by
  have hsmall := hP.dqCap_lt
  have hin := inWindow_evict_concat h hw (by omega) v
  have hlen := hin.length_le
  rw [List.length_append, List.length_singleton] at hlen
  have hguard : dequeFull P (evict w v (now + 1) d) = false := by
    rw [dequeFull, beq_eq_false_iff_ne]
    omega
  refine ⟨hguard, ?_⟩
  rw [swmPush_dq, makeRoom, hguard]
  exact hin

/-- While indices are consecutive a configured band's pipeline fires no capacity guard and leaves the deque
inside its window (R30, R89, R105). -/
theorem windowInv_bandOutcome {s : State} (hP : s.params.IsLegal) {b : Nat} (hL : BandLegal s.params (s.band b))
    {now : Index} (hwin : WindowInv now (s.band b)) (x : SampleWord) :
    (bandOutcome s.params x (now + 1) s b).guardFired = false
      ∧ WindowInv (now + 1) (bandOutcome s.params x (now + 1) s b).band := by
  obtain ⟨-, -, hw, hcap, -, -⟩ := hL
  obtain ⟨hguard, hin⟩ := inWindow_swmPush hP ((windowInv_iff _ _).1 hwin) hw hcap
    (trackerInput s.params (firApply s.params (coefAt s.params s.powerOn b (s.band b).coef) (s.band b) x).y)
  refine ⟨hguard, ?_⟩
  rw [bandOutcome]
  obtain ⟨thr, sslp, pos, bpm, hband⟩ := bandPipeline_frame s.params s.fs
    (coefAt s.params s.powerOn b (s.band b).coef) (s.band b) x (now + 1)
  rw [hband]
  exact hin

/-- Settles O58: band by band with `windowInv_bandOutcome`; no guard fires, so `DQOVF` stays 0. -/
theorem indexObligationKeepsTheWindow : Obligations.IndexObligationKeepsTheWindow := by
  intro x now s t hlegal hrun hL hdqovf hwin h
  have hP := (Params.legal_iff _).1 hlegal
  obtain ⟨-, -, -, -, hbl⟩ := hL
  obtain ⟨hconfig, -⟩ | ⟨-, hd, rfl⟩ := execSample_cases h
  · rw [hrun] at hconfig
    cases hconfig
  have hout := fun b hb => windowInv_bandOutcome hP (hbl b hb) (hwin b hb) x
  refine ⟨?_, processSample_nbands .., fun b hb => ?_⟩
  · rw [← Bool.not_eq_true, dqovf_processSample hP hd]
    rintro (hold | ⟨b, hb, hfired⟩)
    · rw [hdqovf] at hold
      cases hold
    · rw [(hout b hb).1] at hfired
      cases hfired
  · have hwin' : WindowInv (now + 1) ((processSample s.params x (now + 1) s).band b) := by
      rw [band_processSample hP hd, if_pos hb]
      exact (hout b hb).2
    exact ⟨hwin', ((windowInv_iff _ _).1 hwin').length_le⟩

end Sys2Proof.Machine

/-! ## Proofs: the address map (R42, R47, R48) -/

namespace Sys2Proof.Machine

/-- A named word of a band block is at its offset in the block (R42). -/
theorem bandReg_addr {b off : Nat} {r : ConfigReg} (h : bandReg b off = some r) :
    r.addr = 0x0100 + 0x10 * b + off := by
  unfold bandReg at h
  split at h <;> cases h <;> rfl

/-- The mapped offsets of a band block (R42). -/
theorem isSome_bandReg_iff (b off : Nat) :
    (bandReg b off).isSome = true ↔ off ≤ 0x4 ∨ (0x8 ≤ off ∧ off ≤ 0xD) := by
  unfold bandReg
  split
  case h_12 =>
    simp only [imp_false] at *
    simp only [Option.isSome_none, Bool.false_eq_true, false_iff]
    omega
  all_goals simp

/-- The writable offsets of a band block (R42). -/
theorem isSome_filter_writable_bandReg_iff (b off : Nat) :
    ((bandReg b off).filter ConfigReg.writable).isSome = true ↔ off ≤ 0x4 := by
  unfold bandReg
  split
  case h_12 =>
    simp only [imp_false] at *
    simp only [Option.filter_none, Option.isSome_none, Bool.false_eq_true, false_iff]
    omega
  all_goals simp [ConfigReg.writable]

/-- An address in the block of a band that exists names the word at its offset (R42). -/
theorem configReg_bandBlock {P : Params} {addr : CfgAddr} {b off : Nat} (hb : b < P.nbMax) (hoff : off < 0x10)
    (h : addr.toNat = 0x0100 + 0x10 * b + off) : configReg P addr = bandReg b off := by
  unfold configReg
  have hband : (addr.toNat - 0x0100) / 0x10 = b := by omega
  have hword : (addr.toNat - 0x0100) % 0x10 = off := by omega
  have hblock : 0x0100 ≤ addr.toNat ∧ addr.toNat < 0x0100 + 0x10 * P.nbMax := by omega
  simp only [hband, hword, if_pos hblock]
  rw [if_neg (by omega), if_neg (by omega), if_neg (by omega), if_neg (by omega)]

/-- An address in the coefficient block of a band names the tap at its offset (R42). -/
theorem configReg_coefBlock {P : Params} (hP : P.IsLegal) {addr : CfgAddr} {b k : Nat} (hb : b < P.nbMax)
    (hk : k < P.ntMax) (h : addr.toNat = 0x1000 + 0x400 * b + k) : configReg P addr = some (.coef b k) := by
  have hnb := hP.nbMax_le
  have hnt := hP.ntMax_le
  unfold configReg
  have hband : (addr.toNat - 0x1000) / 0x400 = b := by omega
  have htap : (addr.toNat - 0x1000) % 0x400 = k := by omega
  have hlow : 0x1000 ≤ addr.toNat := by omega
  simp only [hband, htap, hlow, hb, hk, and_self, if_true]
  rw [if_neg (by omega), if_neg (by omega), if_neg (by omega), if_neg (by omega), if_neg (by omega)]

/-- A mapped address is the address of the word it names (R42). -/
theorem configReg_addr {P : Params} {addr : CfgAddr} {r : ConfigReg} (h : configReg P addr = some r) :
    r.addr = addr.toNat := by
  unfold configReg at h
  dsimp only at h
  split_ifs at h with h0 h1 h2 h3 hblock hcoef
  case pos | pos | pos | pos => cases h; simp only [ConfigReg.addr, *]
  · rw [bandReg_addr h]
    omega
  · cases h
    simp only [ConfigReg.addr]
    omega

/-- Every word of a legal record has a 16-bit address (R41, R42). -/
theorem ConfigReg.addr_lt {P : Params} (hP : P.IsLegal) {r : ConfigReg} (hr : r.present P = true) :
    r.addr < 2 ^ 16 := by
  have hnb := hP.nbMax_le
  have hnt := hP.ntMax_le
  cases r
  all_goals
    simp only [ConfigReg.present, ConfigReg.addr, Bool.and_eq_true, decide_eq_true_eq] at hr ⊢
    omega

/-- The address of a word of a legal record names that word (R42). -/
theorem configReg_of_addr {P : Params} (hP : P.IsLegal) {r : ConfigReg} (hr : r.present P = true)
    {addr : CfgAddr} (h : addr.toNat = r.addr) : configReg P addr = some r := by
  cases r
  case status | cfgerr | fs | nbands => simp [configReg, h, ConfigReg.addr]
  case coef b k =>
    simp only [ConfigReg.present, Bool.and_eq_true, decide_eq_true_eq] at hr
    exact configReg_coefBlock hP hr.1 hr.2 h
  all_goals exact configReg_bandBlock (of_decide_eq_true hr) (by decide) h

/-- Settles O40: `configReg` and `ConfigReg.addr` are inverse on the words that exist. -/
theorem addressMapIsOneToOne : Obligations.AddressMapIsOneToOne := by
  intro P hlegal
  have hP := (Params.legal_iff P).1 hlegal
  refine ⟨fun r hr => ?_, fun addr r h => ⟨configReg_present h, configReg_addr h⟩⟩
  have hlt := ConfigReg.addr_lt hP hr
  exact ⟨hlt, configReg_of_addr hP hr (Nat.mod_eq_of_lt hlt)⟩

/-- The four lowest addresses name the global words (R42). -/
theorem configReg_global (P : Params) {addr : CfgAddr} (h : addr.toNat ≤ 0x0003) :
    configReg P addr = [.status, .cfgerr, .fs, .nbands][addr.toNat]? := by
  unfold configReg
  interval_cases addr.toNat <;> rfl

/-- An address in none of the three regions of R42 is unmapped (R47). -/
theorem configReg_eq_none {P : Params} {addr : CfgAddr} (hglobal : ¬addr.toNat ≤ 0x0003)
    (hblock : ¬(0x0100 ≤ addr.toNat ∧ addr.toNat < 0x0100 + 0x10 * P.nbMax))
    (hcoef : ¬(0x1000 ≤ addr.toNat ∧ (addr.toNat - 0x1000) / 0x400 < P.nbMax
      ∧ (addr.toNat - 0x1000) % 0x400 < P.ntMax)) : configReg P addr = none := by
  unfold configReg
  simp only [if_neg hblock, if_neg hcoef]
  rw [if_neg (by omega), if_neg (by omega), if_neg (by omega), if_neg (by omega)]

/-- Settles O41: the regions of R42 one by one, with the offsets of a band block from `bandReg`. -/
theorem referenceAddressRanges : Obligations.ReferenceAddressRanges := by
  intro addr
  have hP := (Params.legal_iff Params.reference).1 (by decide)
  have hnb : Params.reference.nbMax = 8 := rfl
  have hnt : Params.reference.ntMax = 1024 := rfl
  unfold writableReg
  by_cases hglobal : addr.toNat ≤ 0x0003
  · rw [configReg_global _ hglobal]
    interval_cases addr.toNat <;> decide
  by_cases hblock : 0x0100 ≤ addr.toNat ∧ addr.toNat ≤ 0x017F
  · rw [configReg_bandBlock (b := (addr.toNat - 0x0100) / 16) (off := addr.toNat % 16) (by omega) (by omega)
      (by omega), isSome_bandReg_iff, isSome_filter_writable_bandReg_iff]
    omega
  by_cases hcoef : 0x1000 ≤ addr.toNat ∧ addr.toNat ≤ 0x2FFF
  · rw [configReg_coefBlock hP (b := (addr.toNat - 0x1000) / 1024) (k := (addr.toNat - 0x1000) % 1024) (by omega)
      (by omega) (by omega)]
    simp [ConfigReg.writable, hcoef]
  · rw [configReg_eq_none hglobal (by omega) (by omega)]
    simp only [Option.filter_none, Option.isSome_none, Bool.false_eq_true, false_iff]
    omega

end Sys2Proof.Machine

/-! ## Proofs: reads after a write to the configuration space (R43, R46, R49) -/

namespace Sys2Proof.Machine

/-- Slot `c` after a write of `v` to the named word `r`: one register or one coefficient word of the slot takes
the value, if `r` is one of this slot (R46, R49). Tied to the model by `band_cfgWrite`. -/
def bandWrite (P : Params) (r : ConfigReg) (v : Word) (c : Nat) (B : Band) : Band :=
  { B with
    ntaps := if r = .ntaps c then v else B.ntaps
    wlen := if r = .wlen c then v else B.wlen
    sens := if r = .sens c then v else B.sens
    floor := if r = .floor c then v else B.floor
    minDist := if r = .minDist c then v else B.minDist
    coef := match r with
      | .coef b k => if b = c then coefWrite P B.coef k v else B.coef
      | _ => B.coef }

/-- A slot that exists, after any slot was replaced. -/
theorem band_setBand (s : State) (b : Nat) (B : Band) {c : Nat} (hc : c < Config.slots) :
    (s.setBand b B).band c = if b = c then B else s.band c := by
  split
  case isTrue h => rw [h, band_setBand_same s B hc]
  case isFalse h => exact band_setBand_other s B (Ne.symm h)

/-- What a write to a named word does to a slot (R46, R49). -/
theorem band_cfgWrite (P : Params) (s : State) (r : ConfigReg) (v : Word) {c : Nat} (hc : c < Config.slots) :
    (cfgWrite P s r v).band c = bandWrite P r v c (s.band c) := by
  cases r
  case ntaps b | wlen b | sens b | floor b | minDist b | coef b k =>
    rw [cfgWrite, band_setBand _ _ _ hc]
    by_cases h : b = c <;> simp [bandWrite, h]
  all_goals rfl

/-- A coefficient word of a slot after a write to any named word: the value written if it is that word, else
as before (R46, R49). -/
theorem coefAt_bandWrite (P : Params) (p : Nat) (r : ConfigReg) (v : Word) (c k : Nat) (B : Band) :
    coefAt P p c (bandWrite P r v c B).coef k =
      if r = .coef c k then coefValue P v else coefAt P p c B.coef k := by
  cases r
  case coef b j =>
    by_cases hb : b = c
    · by_cases hj : j = k
      · simp [bandWrite, hb, hj]
      · simp [bandWrite, hb, hj, coefAt_coefWrite_other P p c B.coef v (Ne.symm hj)]
    · simp [bandWrite, hb]
  all_goals simp [bandWrite]

/-- A second write of the same value to the same word changes nothing in a slot. -/
theorem bandWrite_bandWrite (P : Params) (r : ConfigReg) (v : Word) (c : Nat) (B : Band) :
    bandWrite P r v c (bandWrite P r v c B) = bandWrite P r v c B := by
  cases r
  case coef b k =>
    by_cases h : b = c <;> simp [bandWrite, h, coefWrite, Memory.write_write]
  all_goals simp +contextual [bandWrite]

@[simp] theorem cfgWrite_powerOn (P : Params) (s : State) (r : ConfigReg) (v : Word) :
    (cfgWrite P s r v).powerOn = s.powerOn := by
  obtain ⟨_, _, _, h⟩ := cfgWrite_frame P s r v
  rw [h]

theorem cfgWrite_fs (P : Params) (s : State) (r : ConfigReg) (v : Word) :
    (cfgWrite P s r v).fs = if r = .fs then v else s.fs := by
  cases r <;> rfl

theorem cfgWrite_nbands (P : Params) (s : State) (r : ConfigReg) (v : Word) :
    (cfgWrite P s r v).nbands = if r = .nbands then v else s.nbands := by
  cases r <;> rfl

/-- Every word that exists and is not the one written reads as before (R46). -/
theorem cfgRead_cfgWrite_other {P : Params} (hP : P.IsLegal) (s : State) {r r' : ConfigReg} (v : Word)
    (hr' : r'.present P = true) (hne : r' ≠ r) : cfgRead P (cfgWrite P s r v) r' = cfgRead P s r' := by
  have hslot : ∀ {b}, b < P.nbMax → b < Config.slots := fun hb => lt_of_lt_of_le hb hP.nbMax_le_slots
  cases r'
  case status => simp [cfgRead, statusWord]
  case cfgerr => simp [cfgRead, cfgerrWord]
  case fs => simp [cfgRead, cfgWrite_fs, hne.symm]
  case nbands => simp [cfgRead, cfgWrite_nbands, hne.symm]
  case coef b k =>
    simp only [ConfigReg.present, Bool.and_eq_true, decide_eq_true_eq] at hr'
    obtain ⟨hb, -⟩ := hr'
    simp [cfgRead, band_cfgWrite _ _ _ _ (hslot hb), coefAt_bandWrite, hne.symm]
  all_goals
    have hb := hslot (of_decide_eq_true hr')
    simp [cfgRead, band_cfgWrite _ _ _ _ hb, bandWrite, hne.symm]

/-- A coefficient word that was written reads as the sign extension of its low `COEF_W` bits (R49). -/
theorem cfgRead_cfgWrite_coef {P : Params} (hP : P.IsLegal) (s : State) {b k : Nat} (v : Word)
    (hr : (ConfigReg.coef b k).present P = true) :
    cfgRead P (cfgWrite P s (.coef b k) v) (.coef b k) = signedWord (coefValue P v) := by
  simp only [ConfigReg.present, Bool.and_eq_true, decide_eq_true_eq] at hr
  obtain ⟨hb, -⟩ := hr
  rw [cfgRead, band_cfgWrite _ _ _ _ (lt_of_lt_of_le hb hP.nbMax_le_slots), coefAt_bandWrite, if_pos rfl]

/-- A register that was written reads as the word written (R46). -/
theorem cfgRead_cfgWrite_register {P : Params} (hP : P.IsLegal) (s : State) {r : ConfigReg} (v : Word)
    (hr : r.present P = true) (hw : r.writable = true) (hcoef : ∀ b k, r ≠ .coef b k) :
    cfgRead P (cfgWrite P s r v) r = v := by
  cases r
  case fs | nbands => rfl
  case ntaps b | wlen b | sens b | floor b | minDist b =>
    have hb := lt_of_lt_of_le (of_decide_eq_true hr) hP.nbMax_le_slots
    simp [cfgRead, band_cfgWrite _ _ _ _ hb, bandWrite]
  case coef b k => exact absurd rfl (hcoef b k)
  all_goals cases hw

/-- Writing a word twice is writing it once (R46). -/
theorem cfgWrite_cfgWrite (P : Params) (s : State) (r : ConfigReg) (v : Word) :
    cfgWrite P (cfgWrite P s r v) r v = cfgWrite P s r v := by
  refine State.ext_bands ?_ fun b hb => ?_
  · cases r <;> rfl
  · rw [band_cfgWrite _ _ _ _ hb, band_cfgWrite _ _ _ _ hb, bandWrite_bandWrite]

/-- Beside the two global registers and the band slots, a write changes nothing of the block (R46). -/
theorem cfgWrite_eq_frame (P : Params) (s : State) (r : ConfigReg) (v : Word) :
    cfgWrite P s r v =
      { s with
        fs := (cfgWrite P s r v).fs, nbands := (cfgWrite P s r v).nbands, bands := (cfgWrite P s r v).bands } := by
  obtain ⟨_, _, _, h⟩ := cfgWrite_frame P s r v
  rw [h]

/-- Settles O42: the reads after `cfgWrite`, its frame, and `cfgWrite_cfgWrite`. -/
theorem writeChangesOneWord : Obligations.WriteChangesOneWord := by
  intro P s r v hlegal hr hw _ s'
  have hP := (Params.legal_iff P).1 hlegal
  refine ⟨?_, fun r' hr' hne => cfgRead_cfgWrite_other hP s v hr' hne, cfgWrite_eq_frame P s r v, fun b hb => ?_,
    cfgWrite_cfgWrite P s r v⟩
  · cases r
    case coef b k => exact cfgRead_cfgWrite_coef hP s v hr
    all_goals exact cfgRead_cfgWrite_register hP s v hr hw (by simp)
  · have hband : s'.band b = bandWrite P r v b (s.band b) := band_cfgWrite P s r v hb
    rw [hband]
    exact ⟨rfl, rfl, rfl⟩

end Sys2Proof.Machine

/-! ## Proofs: coefficient words as signed integers (R27, R49) -/

namespace Sys2Proof.Machine

/-- `sext_n` is the integer of the low `n` bits as a bit vector (00_scope section 5). -/
theorem sextN_eq_toInt {n : Nat} (hn : 1 ≤ n) (p : Nat) : sextN n p = (BitVec.ofNat n p).toInt := by
  obtain ⟨m, rfl⟩ : ∃ m, n = m + 1 := ⟨n - 1, by omega⟩
  rw [sextN, BitVec.toInt_eq_toNat_cond, BitVec.toNat_ofNat, Nat.add_sub_cancel]
  have hhalf : p % 2 ^ (m + 1) < 2 ^ m ↔ 2 * (p % 2 ^ (m + 1)) < 2 ^ (m + 1) := by
    rw [pow_succ]
    omega
  simp only [hhalf, Nat.cast_pow, Nat.cast_ofNat]

/-- The low `n` bits of a wider two's complement pattern are the pattern of width `n`. -/
theorem setWidth_ofInt {m n : Nat} (h : n ≤ m) (c : Int) :
    (BitVec.ofInt m c).setWidth n = BitVec.ofInt n c := by
  apply BitVec.eq_of_toInt_eq
  rw [BitVec.toInt_setWidth, ← Int.bmod_bmod_of_dvd (pow_dvd_pow 2 h), ← BitVec.toInt_eq_toNat_bmod,
    BitVec.toInt_ofInt, BitVec.toInt_ofInt, Int.bmod_bmod_of_dvd (pow_dvd_pow 2 h)]

/-- The two's complement form of a value of `COEF_W` bits is stored as that value (R27, R49). -/
theorem coefValue_ofInt {P : Params} (hP : P.IsLegal) {c : Int} (hc : FitsSigned P.coefW c) :
    coefValue P (BitVec.ofInt 32 c) = c := by
  have hpos : 0 < P.coefW := lt_of_lt_of_le (by decide) hP.coefW_ge
  obtain ⟨hlo, hhi⟩ := hc
  rw [coefValue, sextN_eq_toInt hpos, BitVec.ofNat_toNat, setWidth_ofInt hP.coefW_le,
    BitVec.toInt_ofInt_eq_self hpos hlo hhi]

/-- Settles O43: by `coefValue_ofInt`. -/
theorem coefficientReadsBackSigned : Obligations.CoefficientReadsBackSigned := by
  intro P c hlegal hc
  have hstored := coefValue_ofInt ((Params.legal_iff P).1 hlegal) hc
  exact ⟨hstored, by rw [hstored, signedWord]⟩

end Sys2Proof.Machine

/-! ## Proofs: the layouts of the packed registers (R42, R43) -/

namespace Sys2Proof.Machine

/-- `STATUS` as a number: `mode` in bit 0, `DQOVF` in bit 1 (R43). -/
theorem toNat_statusWord (s : State) :
    (statusWord s).toNat = (if s.mode = .run then 1 else 0) + (if s.dqovf then 2 else 0) := by
  unfold statusWord
  cases s.mode <;> cases s.dqovf <;> rfl

/-- `CFGERR` as a 32-bit number (R43). -/
theorem toNat_cfgerrWord (s : State) : (cfgerrWord s).toNat = s.cfgerr.toNat := by
  rw [cfgerrWord, BitVec.toNat_append]
  simp

/-- A number that fits a register reads as itself (R42, R43). -/
theorem toNat_unsignedWord {n : Nat} (h : n < 2 ^ 32) : (unsignedWord n).toNat = n := Nat.mod_eq_of_lt h

/-- The two halves of a threshold within its width make it up (R42). -/
theorem thrHigh_thrLow {P : Params} (hP : P.IsLegal) {thr : Nat} (h : thr < 2 ^ P.thrW) :
    (thrHigh P thr).toNat * 2 ^ 32 + (thrLow thr).toNat = thr := by
  have hthr : thr < 2 ^ 64 := lt_of_lt_of_le h (Nat.pow_le_pow_right (by decide) hP.thrW_le)
  rw [thrHigh, thrLow, BitVec.toNat_ofNat, BitVec.toNat_ofNat, Nat.mod_eq_of_lt h]
  omega

/-- A BPM estimate within its width fits a register (R33, R8). -/
theorem two_pow_bpmW_le {P : Params} (hP : P.IsLegal) : 2 ^ P.bpmW ≤ 2 ^ 32 := by
  have hfs := hP.fsW_le
  exact Nat.pow_le_pow_right (by decide) (by rw [hP.bpmW_eq]; omega)

/-- Settles O44: the plain registers by definition of `cfgRead`, the packed ones by their layouts and the
widths of `BandInv`. -/
theorem registerReadsAndLayouts : Obligations.RegisterReadsAndLayouts := by
  intro s b hlegal _ hB
  have hP := (Params.legal_iff _).1 hlegal
  obtain ⟨-, -, -, ⟨hlen, -, -⟩, hthr, hbpm⟩ := hB
  have hdq : (s.band b).dq.length < 2 ^ 32 := by
    have hcap := hP.dqCap_lt
    omega
  exact ⟨rfl, rfl, rfl, rfl, rfl, rfl, rfl, rfl, rfl, toNat_statusWord s, toNat_cfgerrWord s,
    toNat_unsignedWord (lt_of_lt_of_le hbpm (two_pow_bpmW_le hP)), thrHigh_thrLow hP hthr, toNat_unsignedWord hdq⟩

end Sys2Proof.Machine

/-! ## Proofs: the decoder, the encoder and the opcode map (R57 to R60, R69) -/

namespace Sys2Proof

/-- The fields of an encoding are the opcode, a reserved field of 0 and the two operands (R57 to R59). -/
theorem encode_eq_iff (i : Instr) (w : CmdWord) :
    encode i = w ↔ fieldRSV w = 0 ∧ fieldOP w = i.opcode ∧ fieldA w = i.operandA ∧ fieldD w = i.operandD := by
  constructor
  · rintro rfl
    simp [encode]
  · rintro ⟨hrsv, hop, ha, hd⟩
    rw [encode, ← hop, ← ha, ← hd, ← hrsv, commandWord_fields]

/-- The opcode map gives a command exactly for that command's opcode and operands (R59). -/
theorem decodeOpcode_eq_command_iff (op : BitVec 4) (a : BitVec 16) (d : Word) (i : Instr) :
    decodeOpcode op a d = .command i ↔ op = i.opcode ∧ a = i.operandA ∧ d = i.operandD := by
  constructor
  · intro h
    unfold decodeOpcode at h
    split at h
    case h_7 => cases h
    all_goals
      cases h
      exact ⟨BitVec.eq_of_toNat_eq ‹_›, rfl, rfl⟩
  · rintro ⟨rfl, rfl, rfl⟩
    cases i <;> rfl

/-- A word decodes to a command exactly when it is that command's encoding (R57 to R59). -/
theorem decode_eq_command_iff (w : CmdWord) (i : Instr) : decode w = .command i ↔ encode i = w := by
  rw [encode_eq_iff, ← decodeOpcode_eq_command_iff, decode]
  by_cases hrsv : fieldRSV w = 0
  · simp only [hrsv, if_true, true_and]
  · simp only [hrsv, if_false, false_and, reduceCtorEq]

/-- Settles O1: by `decode_eq_command_iff`. -/
theorem decodeInvertsEncode : Obligations.DecodeInvertsEncode := fun i _ =>
  (decode_eq_command_iff (encode i) i).2 rfl

/-- Settles O2: by `decode_eq_command_iff`, the other way. -/
theorem encodeInvertsDecode : Obligations.EncodeInvertsDecode := fun w i =>
  (decode_eq_command_iff w i).1

/-- The operand fields of a command take every value (R58). -/
theorem exists_instr_operands (j : Instr) (a : BitVec 16) (d : Word) :
    ∃ i : Instr, i.opcode = j.opcode ∧ i.operandA = a ∧ i.operandD = d := by
  cases j with
  | nop => exact ⟨.nop a d, rfl, rfl, rfl⟩
  | cfgw => exact ⟨.cfgw a d, rfl, rfl, rfl⟩
  | cfgr => exact ⟨.cfgr a d, rfl, rfl, rfl⟩
  | init => exact ⟨.init a d, rfl, rfl, rfl⟩
  | sample => exact ⟨.sample a d, rfl, rfl, rfl⟩
  | stop => exact ⟨.stop a d, rfl, rfl, rfl⟩

/-- A word decodes to a command with the opcode of `j` exactly when its opcode field holds that opcode and its
reserved field is 0 (R59, R60). -/
theorem exists_decode_opcode_iff (w : CmdWord) (j : Instr) :
    (∃ i, decode w = .command i ∧ i.opcode = j.opcode) ↔ fieldOP w = j.opcode ∧ fieldRSV w = 0 := by
  simp only [decode_eq_command_iff, encode_eq_iff]
  constructor
  · rintro ⟨i, ⟨hrsv, hop, -⟩, hij⟩
    exact ⟨hop.trans hij, hrsv⟩
  · rintro ⟨hop, hrsv⟩
    obtain ⟨i, hij, ha, hd⟩ := exists_instr_operands j (fieldA w) (fieldD w)
    exact ⟨i, ⟨hrsv, hop.trans hij.symm, ha.symm, hd.symm⟩, hij⟩

/-- The mnemonic and the opcode tell the commands apart in the same way (R59). -/
theorem mnemonic_eq_iff (i j : Instr) : i.mnemonic = j.mnemonic ↔ i.opcode = j.opcode := by
  cases i <;> cases j <;> simp [Instr.mnemonic, Instr.opcode]

/-- The row of R59 that a command belongs to. -/
def Instr.row (j : Instr) : OpcodeRow := ⟨j.mnemonic, commandWord j.opcode 0 0 0, 0xFFFF000000000000⟩

/-- Every row of the opcode map is the row of a command (R59). -/
theorem exists_row_of_mem_opcodeMap {r : OpcodeRow} (hr : r ∈ opcodeMap) : ∃ j : Instr, r = j.row := by
  simp only [opcodeMap, List.mem_cons, List.not_mem_nil, or_false] at hr
  rcases hr with rfl | rfl | rfl | rfl | rfl | rfl
  · exact ⟨.nop 0 0, rfl⟩
  · exact ⟨.cfgw 0 0, rfl⟩
  · exact ⟨.cfgr 0 0, rfl⟩
  · exact ⟨.init 0 0, rfl⟩
  · exact ⟨.sample 0 0, rfl⟩
  · exact ⟨.stop 0 0, rfl⟩

/-- The mask of R59 keeps the opcode and the reserved field of a command word. -/
theorem and_mask (w : CmdWord) :
    w &&& 0xFFFF000000000000 = commandWord (fieldOP w) (fieldRSV w) 0 0 := by
  have hop : fieldOP (w &&& 0xFFFF000000000000) = fieldOP w :=
    BitVec.extractLsb'_and.trans BitVec.and_allOnes
  have hrsv : fieldRSV (w &&& 0xFFFF000000000000) = fieldRSV w :=
    BitVec.extractLsb'_and.trans BitVec.and_allOnes
  have ha : fieldA (w &&& 0xFFFF000000000000) = 0 := BitVec.extractLsb'_and.trans BitVec.and_zero
  have hd : fieldD (w &&& 0xFFFF000000000000) = 0 := BitVec.extractLsb'_and.trans BitVec.and_zero
  rw [← commandWord_fields (w &&& 0xFFFF000000000000), hop, hrsv, ha, hd]

/-- A word fits the row of a command exactly when its opcode field holds that command's opcode and its reserved
field is 0 (R59). -/
theorem fits_row_iff (w : CmdWord) (j : Instr) :
    j.row.fits w = true ↔ fieldOP w = j.opcode ∧ fieldRSV w = 0 := by
  rw [OpcodeRow.fits, beq_iff_eq, Instr.row, and_mask]
  constructor
  · intro h
    have hop := congrArg fieldOP h
    have hrsv := congrArg fieldRSV h
    rw [fieldOP_commandWord, fieldOP_commandWord] at hop
    rw [fieldRSV_commandWord, fieldRSV_commandWord] at hrsv
    exact ⟨hop, hrsv⟩
  · rintro ⟨hop, hrsv⟩
    rw [hop, hrsv]

/-- Settles O4: both sides say that the opcode field holds the row's opcode and that the reserved field is 0. -/
theorem opcodeMapIsTheDecoder : Obligations.OpcodeMapIsTheDecoder := by
  intro r hr w
  obtain ⟨j, rfl⟩ := exists_row_of_mem_opcodeMap hr
  rw [fits_row_iff, ← exists_decode_opcode_iff]
  simp only [← mnemonic_eq_iff, Instr.row]

/-- An encoding as a number (R69). -/
theorem toNat_encode (i : Instr) :
    (encode i).toNat = i.opcode.toNat * 2 ^ 60 + i.operandA.toNat * 2 ^ 32 + i.operandD.toNat := by
  rw [encode, toNat_commandWord, show (0 : BitVec 12).toNat = 0 from rfl]
  ring

/-- Settles O5: `toNat_encode` at each command. -/
theorem commandWordsAsNumbers : Obligations.CommandWordsAsNumbers := by
  intro a d
  simp [toNat_encode, Instr.opcode, Instr.operandA, Instr.operandD]

/-- Settles O6: each word is the encoding of the command named. -/
theorem specExampleWordsDecode : Obligations.SpecExampleWordsDecode := by
  unfold Obligations.SpecExampleWordsDecode
  simp only [decode_eq_command_iff]
  decide

end Sys2Proof

/-! ## Proofs: a response and its header (R61 to R63, R65) -/

namespace Sys2Proof.Machine

/-- A header word as a number (R61). -/
theorem toNat_headerWord (kind : BitVec 4) (info : BitVec 8) :
    (headerWord kind info).toNat = kind.toNat * 2 ^ 28 + info.toNat := by
  have hinfo := info.isLt
  rw [headerWord, BitVec.toNat_append, BitVec.toNat_append, ← Nat.shiftLeft_add_eq_or_of_lt hinfo]
  simp [Nat.shiftLeft_eq, Nat.mul_assoc]

/-- The fields of a header word are the ones it was made of (R61). -/
theorem fields_headerWord (kind : BitVec 4) (info : BitVec 8) :
    (headerWord kind info).extractLsb' 28 4 = kind ∧ (headerWord kind info).extractLsb' 0 8 = info := by
  have := info.isLt
  constructor
  all_goals
    apply BitVec.eq_of_toNat_eq
    rw [BitVec.extractLsb'_toNat, Nat.shiftRight_eq_div_pow, toNat_headerWord]
    omega

/-- A mask has at most eight bits. -/
theorem popcount_le (m : BitVec 8) : popcount m ≤ 8 :=
  List.length_filter_le ..

/-- The length that the header of a response announces is the number of its words, at most 33, if a PEAKS
response has one event for each bit of its mask (R62, R65). -/
theorem responseLength_responseWords (P : Params) {r : Response}
    (hr : ∀ mask events, r = .peaks mask events → events.length = popcount mask) :
    ∃ header rest, responseWords P r = header :: rest ∧ responseLength header = some (rest.length + 1)
      ∧ rest.length + 1 ≤ 33 := by
  cases r with
  | ack => exact ⟨_, _, rfl, by decide, by decide⟩
  | data v => exact ⟨_, _, rfl, rfl, by simp⟩
  | nak code => exact ⟨_, _, rfl, by cases code <;> decide, by decide⟩
  | peaks mask events =>
    have hlen := hr mask events rfl
    have hmask := popcount_le mask
    obtain ⟨hkind, hinfo⟩ := fields_headerWord 0x2 mask
    refine ⟨_, _, rfl, ?_, ?_⟩
    · simp only [responseLength, hkind, hinfo, length_flatMap_eventWords, hlen]
      exact congrArg some (Nat.add_comm ..)
    · rw [length_flatMap_eventWords]
      omega

/-- Settles O7: the words of each response, and the marks `markLast` puts on them. -/
theorem responseLengthFollowsFromHeader : Obligations.ResponseLengthFollowsFromHeader := by
  intro P r hr
  obtain ⟨header, rest, hwords, hlen, hmax⟩ := responseLength_responseWords P hr
  exact ⟨header, rest, hwords, hlen, hmax, markLast_words _, markLast_lasts header rest⟩

/-- The elapsed milliseconds of an event fit `MS_W` bits (R108). -/
theorem elapsedMs_lt {P : Params} (hP : P.IsLegal) {fs : Word} (hfs : 1 ≤ fs.toNat) (pos : Word) :
    elapsedMs fs pos < 2 ^ P.msW := by
  have hle : elapsedMs fs pos ≤ 1000 * pos.toNat := rhu_le _ hfs
  have hpos := pos.isLt
  rw [hP.msW_eq, hP.posW_eq]
  omega

/-- The four words of an event record, its milliseconds cut at bit 32 (R63, R108). -/
theorem eventWords_peakEvent {P : Params} (hP : P.IsLegal) {fs : Word} (hfs : 1 ≤ fs.toNat) (b : Nat) (B : Band) :
    eventWords P (peakEvent fs b B) =
      [BitVec.ofNat 32 b, B.pos, BitVec.ofNat 32 (elapsedMs fs B.pos),
        BitVec.ofNat 32 (elapsedMs fs B.pos / 2 ^ 32)] := by
  simp only [eventWords, peakEvent, Nat.mod_eq_of_lt (elapsedMs_lt hP hfs B.pos)]

/-- Settles O31: the milliseconds fit `MS_W = 42` bits, so two words hold them. -/
theorem eventRecordHoldsTheEvent : Obligations.EventRecordHoldsTheEvent := by
  intro P fs b B hlegal hfs hb
  have hP := (Params.legal_iff P).1 hlegal
  have hms := elapsedMs_lt hP hfs B.pos
  refine ⟨rfl, hms, _, _, _, _, eventWords_peakEvent hP hfs b B, ?_, rfl, ?_⟩
  · have hnb := hP.nbMax_le
    rw [BitVec.toNat_ofNat]
    omega
  · rw [hP.msW_eq, hP.posW_eq] at hms
    change _ = elapsedMs fs B.pos
    rw [BitVec.toNat_ofNat, BitVec.toNat_ofNat]
    omega

end Sys2Proof.Machine

/-! ## Proofs: the PEAKS response of a SAMPLE (R62, R104, R107 to R111) -/

namespace Sys2Proof.Machine

/-- Cutting a range at `n` and then selecting is selecting from the range up to `n`. -/
theorem filter_range_lt {m n : Nat} (h : n ≤ m) (p : Nat → Bool) :
    (List.range m).filter (fun b => decide (b < n) && p b) = (List.range n).filter p := by
  induction m, h using Nat.le_induction with
  | base => exact List.filter_congr fun b hb => by simp [List.mem_range.1 hb]
  | succ m hm ih => simp [List.range_succ, ih, Nat.not_lt.2 hm]

section
variable (P : Params) (x : SampleWord) (idx : Index) {s : State} (hn : s.nbands.toNat ≤ Config.slots)
include hn

/-- The events of SAMPLE's loop: those of the bands that peaked, in ascending order (R107, R109). -/
theorem events_sampleLoop : (sampleLoop P x idx s).events =
    ((List.range 8).filter (peaksOn P x idx s)).map
      fun b => peakEvent s.fs b (bandOutcome P x idx s b).band := by
  obtain ⟨-, -, -, -, -, hevents⟩ := sampleLoop_spec P x idx s hn
  rw [hevents]
  exact congrArg _ (filter_range_lt hn _).symm

/-- The mask of a SAMPLE's response has one bit for each band that peaked (R62, R104). -/
theorem getLsbD_mask_sampleLoop {b : Nat} (hb : b < 8) :
    (BitVec.ofNat 8 (sampleLoop P x idx s).mask).getLsbD b = peaksOn P x idx s b := by
  obtain ⟨-, -, -, -, hmask, -⟩ := sampleLoop_spec P x idx s hn
  rw [BitVec.getLsbD_ofNat, hmask]
  simp [hb]

/-- One event for each bit of the mask (R62). -/
theorem length_events_sampleLoop :
    (sampleLoop P x idx s).events.length = popcount (BitVec.ofNat 8 (sampleLoop P x idx s).mask) := by
  rw [events_sampleLoop P x idx hn, List.length_map, popcount]
  congr 1
  exact List.filter_congr fun b hb => (getLsbD_mask_sampleLoop P x idx hn (List.mem_range.1 hb)).symm

/-- A SAMPLE in RUN appends its PEAKS response and nothing else (R56, R110). -/
theorem out_processSample : (processSample P x idx s).out =
    s.out ++ markLast (responseWords P
      (.peaks (BitVec.ofNat 8 (sampleLoop P x idx s).mask) (sampleLoop P x idx s).events)) := by
  obtain ⟨hst, -⟩ := sampleLoop_spec P x idx s hn
  rw [processSample, respond_out, hst]

end

/-- A write to a named word sends no response of its own (R46). -/
@[simp] theorem cfgWrite_out (P : Params) (s : State) (r : ConfigReg) (v : Word) :
    (cfgWrite P s r v).out = s.out := by
  obtain ⟨_, _, _, h⟩ := cfgWrite_frame P s r v
  rw [h]

/-- Settles O8: the response in each case of each command's law; SAMPLE in RUN by `length_events_sampleLoop`. -/
theorem everyCommandGivesOneResponse : Obligations.EveryCommandGivesOneResponse := by
  intro i s t hlegal h
  cases i with
  | nop a d => cases h; exact ⟨.ack, rfl, by simp⟩
  | cfgw addr data =>
    cases h
    rcases cfgwWith_cases s.params addr data s with ⟨-, h⟩ | ⟨-, -, h⟩ | ⟨r, -, -, h⟩ <;> rw [h]
    · exact ⟨.nak .badState, rfl, by simp⟩
    · exact ⟨.nak .badAddr, rfl, by simp⟩
    · exact ⟨.ack, by rw [respond_out, cfgWrite_out], by simp⟩
  | cfgr addr d =>
    cases h
    rcases cfgrWith_cases s.params addr s with ⟨-, h⟩ | ⟨r, -, h⟩ <;> rw [h]
    · exact ⟨.nak .badAddr, rfl, by simp⟩
    · exact ⟨.data (cfgRead s.params s r), rfl, by simp⟩
  | init a d =>
    cases h
    rcases initWith_cases s.params s with ⟨-, h⟩ | ⟨e, -, -, h⟩ | ⟨-, -, h⟩ <;> rw [h]
    · exact ⟨.nak .badState, rfl, by simp⟩
    · exact ⟨.nak .cfgInvalid, rfl, by simp⟩
    · exact ⟨.ack, rfl, by simp⟩
  | sample x idx =>
    rcases execSample_cases h with ⟨-, rfl⟩ | ⟨-, hd, rfl⟩
    · exact ⟨.nak .badState, rfl, by simp⟩
    · have hn := nbands_le_slots ((Params.legal_iff _).1 hlegal) hd
      refine ⟨_, out_processSample _ x idx hn, fun mask events hr => ?_⟩
      cases hr
      exact length_events_sampleLoop _ x idx hn
  | stop a d =>
    cases h
    rcases stopWith_cases s.params s with ⟨-, h⟩ | ⟨-, h⟩ <;> rw [h]
    · exact ⟨.nak .badState, rfl, by simp⟩
    · exact ⟨.ack, rfl, by simp⟩

/-- A legal configuration is in the domain of SAMPLE's rules (R118; log 11). -/
theorem sampleDefined_of_configLegal {P : Params} {s : State} (hL : ConfigLegal P s) :
    sampleDefined P s = true := by
  obtain ⟨hfs, -, -, hnb, hbands⟩ := hL
  simp only [sampleDefined, Bool.and_eq_true, decide_eq_true_eq, List.all_eq_true, List.mem_range, bne_iff_ne]
  refine ⟨⟨?_, hnb⟩, fun b hb => ?_⟩
  · intro hzero
    simp [hzero] at hfs
  · obtain ⟨hlo, hhi, -⟩ := hbands b hb
    exact ⟨hlo, hhi⟩

/-- SAMPLE in RUN, where its rules are defined (R104). -/
theorem exec_sample_run {s : State} (hm : s.mode = .run) (hd : sampleDefined s.params s = true)
    (x : SampleWord) (idx : Index) : exec (.sample x idx) s = .next (processSample s.params x idx s) := by
  change sampleWith s.params x idx s = _
  simp [sampleWith, hm, hd]

/-- A PEAKS header as a sum (R61, R62). -/
theorem headerWord_peaks (mask : BitVec 8) : headerWord 0x2 mask = 0x20000000 + mask.zeroExtend 32 := by
  have := mask.isLt
  apply BitVec.eq_of_toNat_eq
  rw [toNat_headerWord, BitVec.toNat_add, BitVec.toNat_setWidth]
  change 2 * 2 ^ 28 + mask.toNat = (0x20000000 + mask.toNat % 2 ^ 32) % 2 ^ 32
  omega

/-- Settles O29: by `sampleLoop_spec` through the laws of `processSample`, and `eventWords_peakEvent` for the
words of the response. -/
theorem sampleRunsEachBandOnItsOwn : Obligations.SampleRunsEachBandOnItsOwn := by
  intro x idx s hlegal hm hL
  have hP := (Params.legal_iff _).1 hlegal
  have hd := sampleDefined_of_configLegal hL
  have hn := nbands_le_slots hP hd
  obtain ⟨hfs, -⟩ := hL
  obtain ⟨bands, dqovf, out, hframe⟩ := processSample_frame s.params x idx s
  have hout : (processSample s.params x idx s).out = _ := out_processSample s.params x idx hn
  rw [responseWords, headerWord_peaks, events_sampleLoop s.params x idx hn, List.flatMap_map] at hout
  simp only [eventWords_peakEvent hP hfs] at hout
  exact ⟨processSample s.params x idx s, _, exec_sample_run hm hd x idx, by rw [hframe],
    fun b _ => band_processSample hP hd x idx b, dqovf_processSample hP hd x idx,
    fun b hb => getLsbD_mask_sampleLoop s.params x idx hn hb, hout⟩

end Sys2Proof.Machine

/-! ## Proofs: what each source line assembles to (R58, R69, R70) -/

namespace Sys2Proof.Machine

/-! ### Operands -/

/-- Data in range that is not negative is its own 32-bit word (R69). -/
theorem toNat_ofInt_data {c : Int} (hc : dataInRange c = true) (h0 : 0 ≤ c) :
    ((BitVec.ofInt 32 c).toNat : Int) = c := by
  simp only [dataInRange, Bool.and_eq_true, decide_eq_true_eq] at hc
  rw [BitVec.toNat_ofInt]
  omega

/-- Negative data in range is the integer of its two's complement word (R69). -/
theorem toInt_ofInt_data {c : Int} (hc : dataInRange c = true) (h0 : c < 0) : (BitVec.ofInt 32 c).toInt = c := by
  simp only [dataInRange, Bool.and_eq_true, decide_eq_true_eq] at hc
  exact BitVec.toInt_ofInt_eq_self (by decide) hc.1 (by omega)

/-- A sample in range is the integer of its field (R66, R69). -/
theorem sampleValue_ofInt {x : Int} (hx : sampleInRange x = true) : sampleValue (BitVec.ofInt 16 x) = x := by
  simp only [sampleInRange, Bool.and_eq_true, decide_eq_true_eq] at hx
  exact BitVec.toInt_ofInt_eq_self (by decide) hx.1 (by omega)

/-- The address of a word that exists names that word as a 16-bit field too (R42). -/
theorem configReg_ofNat_addr {P : Params} (hP : P.IsLegal) {r : ConfigReg} (hr : r.present P = true) :
    configReg P (BitVec.ofNat 16 r.addr) = some r :=
  configReg_of_addr hP hr (Nat.mod_eq_of_lt (ConfigReg.addr_lt hP hr))

/-- An address operand in range is carried whole: the number written, or the address of the word named (R69). -/
theorem addrOperand_carried {P : Params} (hP : P.IsLegal) {addr : AddrOperand} (h : addr.inRange P = true) :
    (∀ n, addr = .number n → (BitVec.ofNat 16 addr.value).toNat = n)
    ∧ ∀ r, addr = .name r → configReg P (BitVec.ofNat 16 addr.value) = some r := by
  constructor
  · rintro n rfl
    exact Nat.mod_eq_of_lt (of_decide_eq_true h)
  · rintro r rfl
    exact configReg_ofNat_addr hP h

/-! ### Lists of taps and of samples -/

/-- A run of taps has one command a tap, the `k`-th for the `k`-th tap number (R70). -/
theorem asmTaps_eq_mapIdx (b j : Nat) (cs : List Int) :
    asmTaps b j cs = cs.mapIdx fun k c => asmCfgw (ConfigReg.coef b (j + k)).addr c := by
  induction cs generalizing j with
  | nil => rfl
  | cons c cs ih => simp [asmTaps, ih, List.mapIdx_cons, Nat.add_right_comm, Nat.add_assoc]

/-- A burst has one command a sample, the `k`-th with the `k`-th index modulo `2^32` (R70). -/
theorem asmBurst_eq_mapIdx (idx : Nat) (xs : List Int) :
    asmBurst idx xs = xs.mapIdx fun k x => asmSample x ((idx + k) % 2 ^ 32) := by
  induction xs generalizing idx with
  | nil => rfl
  | cons x xs ih => simp [asmBurst, ih, List.mapIdx_cons, Nat.add_right_comm, Nat.add_assoc]

/-! ### Source lines -/

/-- The assembler writes every unused field 0 (R58). -/
theorem canonical_of_mem_assemble (src : Source) : ∀ i ∈ assemble src, i.canonical = true := by
  cases src with
  | taps b cs =>
    intro i hi
    rw [assemble, asmTaps_eq_mapIdx, List.mem_cons, List.mem_mapIdx] at hi
    rcases hi with rfl | ⟨k, hk, rfl⟩ <;> rfl
  | burst idx0 xs =>
    intro i hi
    rw [assemble, asmBurst_eq_mapIdx, List.mem_mapIdx] at hi
    obtain ⟨k, hk, rfl⟩ := hi
    rfl
  | _ => simp [assemble, asmCfgw, asmCfgr, asmSample, Instr.canonical]

/-- `taps` writes the tap count and then one coefficient word a tap (R70). -/
theorem assemble_taps {P : Params} (hP : P.IsLegal) {b : Nat} {cs : List Int} (hb : b < P.nbMax)
    (hlen : cs.length ≤ P.ntMax) :
    (assemble (.taps b cs)).length = cs.length + 1
    ∧ ∃ addr, (assemble (.taps b cs)).head? = some (.cfgw addr (BitVec.ofNat 32 cs.length))
      ∧ configReg P addr = some (.ntaps b)
      ∧ ∀ k c, cs[k]? = some c →
          ∃ a, (assemble (.taps b cs))[k + 1]? = some (.cfgw a (BitVec.ofInt 32 c))
            ∧ configReg P a = some (.coef b k) := by
  have hcount : (ConfigReg.ntaps b).present P = true := decide_eq_true hb
  rw [assemble, asmTaps_eq_mapIdx]
  refine ⟨by simp, _, rfl, configReg_ofNat_addr hP hcount, fun k c hk => ?_⟩
  obtain ⟨hlt, -⟩ := List.getElem?_eq_some_iff.1 hk
  have hcoef : (ConfigReg.coef b k).present P = true := by simp [ConfigReg.present, hb, lt_of_lt_of_le hlt hlen]
  refine ⟨_, ?_, configReg_ofNat_addr hP hcoef⟩
  rw [List.getElem?_cons_succ, List.getElem?_mapIdx, hk, Option.map_some, asmCfgw, Nat.zero_add]

/-- `rdthr` reads the two threshold words (R70). -/
theorem assemble_rdthr {P : Params} (hP : P.IsLegal) {b : Nat} (hb : b < P.nbMax) :
    ∃ lo hi, assemble (.rdthr b) = [.cfgr lo 0, .cfgr hi 0]
      ∧ configReg P lo = some (.thrLo b) ∧ configReg P hi = some (.thrHi b) :=
  ⟨_, _, rfl, configReg_ofNat_addr hP (decide_eq_true hb), configReg_ofNat_addr hP (decide_eq_true hb)⟩

/-- `burst` numbers its samples consecutively modulo `2^32` (R70). -/
theorem assemble_burst {idx0 : Nat} {xs : List Int} (hxs : ∀ x ∈ xs, sampleInRange x = true) :
    (assemble (.burst idx0 xs)).length = xs.length
    ∧ ∀ k x, xs[k]? = some x →
        ∃ w, (assemble (.burst idx0 xs))[k]? = some (Instr.sample w (BitVec.ofNat 32 (idx0 + k)))
          ∧ sampleValue w = x := by
  rw [assemble, asmBurst_eq_mapIdx]
  refine ⟨List.length_mapIdx, fun k x hk => ⟨_, ?_, sampleValue_ofInt (hxs x (List.mem_of_getElem? hk))⟩⟩
  have hidx : BitVec.ofNat 32 ((idx0 + k) % 2 ^ 32) = BitVec.ofNat 32 (idx0 + k) :=
    BitVec.eq_of_toNat_eq (Nat.mod_mod _ _)
  rw [List.getElem?_mapIdx, hk, Option.map_some, asmSample, hidx]

/-- Settles O60, a source form at a time, from the ranges of its operands. -/
theorem assemblerExpandsEachSourceLine : Obligations.AssemblerExpandsEachSourceLine := by
  intro P src hlegal hwf
  have hP := (Params.legal_iff P).1 hlegal
  refine ⟨canonical_of_mem_assemble src, ?nop, ?init, ?stop, ?cfgw, ?cfgr, ?sample,
    ?coef, ?taps, ?rdthr, ?burst⟩
  case nop | init | stop =>
    rintro rfl
    decide
  case cfgw =>
    rintro addr data rfl
    obtain ⟨haddr, hdata⟩ := Bool.and_eq_true_iff.1 hwf
    obtain ⟨hnumber, hname⟩ := addrOperand_carried hP haddr
    exact ⟨_, _, rfl, hnumber, hname, toNat_ofInt_data hdata, toInt_ofInt_data hdata⟩
  case cfgr =>
    rintro addr rfl
    obtain ⟨hnumber, hname⟩ := addrOperand_carried hP hwf
    exact ⟨_, rfl, hnumber, hname⟩
  case sample =>
    rintro x idx rfl
    obtain ⟨hx, hidx⟩ := Bool.and_eq_true_iff.1 hwf
    exact ⟨_, _, rfl, sampleValue_ofInt hx, Nat.mod_eq_of_lt (of_decide_eq_true hidx)⟩
  case coef =>
    rintro b k c rfl
    obtain ⟨hpresent, -⟩ := Bool.and_eq_true_iff.1 hwf
    exact ⟨_, rfl, configReg_ofNat_addr hP hpresent⟩
  case taps =>
    rintro b cs rfl
    simp only [Source.wellFormed, Bool.and_eq_true, decide_eq_true_eq] at hwf
    obtain ⟨⟨hb, hlen⟩, -⟩ := hwf
    exact assemble_taps hP hb hlen
  case rdthr =>
    rintro b rfl
    exact assemble_rdthr hP (of_decide_eq_true hwf)
  case burst =>
    rintro idx0 xs rfl
    obtain ⟨-, hxs⟩ := Bool.and_eq_true_iff.1 hwf
    exact assemble_burst (List.all_eq_true.1 hxs)

end Sys2Proof.Machine

/-! ## Proofs: one call of unit FIR (R71, R72, R74, R76, R78) -/

namespace Sys2Proof.Machine

/-- Settles O14: the bounds of the accumulator and of the filtered sample that the invariant rests on. -/
theorem firAccumulatorCannotOverflow : Obligations.FirAccumulatorCannotOverflow := by
  intro P tap B x hlegal _ hT htap
  have hP := (Params.legal_iff P).1 hlegal
  exact ⟨abs_firAcc_le hP hT htap, abs_firApply_y_le hP x hT htap⟩

@[simp] theorem tapCount_firApply (P : Params) (tap : Nat → Int) (B : Band) (x : SampleWord) :
    (firApply P tap B x).band.tapCount = B.tapCount := rfl

@[simp] theorem firApply_band_dl (P : Params) (tap : Nat → Int) (B : Band) (x : SampleWord) :
    (firApply P tap B x).band.dl = delayWrite B.dl B.cur x := rfl

@[simp] theorem firApply_band_cur (P : Params) (tap : Nat → Int) (B : Band) (x : SampleWord) :
    (firApply P tap B x).band.cur = (B.cur + 1) % B.tapCount := rfl

/-- The filtered sample, from the words of the delay line as the call leaves it (R72). -/
theorem firApply_y_eq_sum (P : Params) (tap : Nat → Int) (B : Band) (x : SampleWord) :
    (firApply P tap B x).y = floorShr
      (∑ k ∈ Finset.range B.tapCount, tap k *
        sampleValue (delayAt (firApply P tap B x).band.dl ((B.cur + B.tapCount - k) % B.tapCount))) P.coefFrac := by
  rw [firApply_y, firAcc_eq_sum]
  rfl

/-- A delay line of a shorter buffer is one of a longer buffer. -/
theorem DelayInv.mono {m n : Nat} {dl : Memory SampleWord} (h : DelayInv m dl) (hmn : m ≤ n) : DelayInv n dl :=
  ⟨h.1, fun c hc => lt_of_lt_of_le (h.2 c hc) hmn⟩

/-- A call keeps the cursor and the delay line inside the buffer (R78). -/
theorem cursorInv_firApply (P : Params) (tap : Nat → Int) {B : Band} (hB : CursorInv B) (x : SampleWord) :
    CursorInv (firApply P tap B x).band := by
  obtain ⟨hcur, hdl⟩ := hB
  exact ⟨Nat.mod_lt _ (Nat.zero_lt_of_lt hcur), delayInv_delayWrite hdl hcur x⟩

/-- Settles O15: `delayWrite_spec` says what the one write of the call does to the delay line. -/
theorem firWritesOneDelayWord : Obligations.FirWritesOneDelayWord := by
  intro P tap B x n hB hn
  have hB' := cursorInv_firApply P tap hB x
  obtain ⟨-, hwf, -⟩ := hB
  obtain ⟨hsame, hother, -, -⟩ := delayWrite_spec B.dl B.cur x hwf
  exact ⟨rfl, firApply_y_eq_sum P tap B x, hsame, hother, hB', hB'.2.mono hn⟩

end Sys2Proof.Machine

/-! ## Proofs: unit FIR over a sequence of samples (R73, R75, R77, R78) -/

namespace Sys2Proof.Machine

/-- R78: with `past` the samples of the calls since construction, newest first, the cursor is their number
modulo the tap count and the word `k + 1` places behind it holds the `k`-th of them, 0 past the last. -/
structure RemembersPast (B : Band) (past : List SampleWord) : Prop where
  tapCount_pos : 1 ≤ B.tapCount
  dl_wf : delayWf B.dl = true
  cur_eq : B.cur = past.length % B.tapCount
  word_eq : ∀ k, k < B.tapCount →
    delayAt B.dl ((B.cur + B.tapCount - 1 - k) % B.tapCount) = past.getD k 0

/-- A freshly constructed delay line remembers no sample (R77). -/
theorem remembersPast_nil {B : Band} (hT : 1 ≤ B.tapCount) (hdl : B.dl = []) (hcur : B.cur = 0) :
    RemembersPast B [] where
  tapCount_pos := hT
  dl_wf := hdl ▸ rfl
  cur_eq := by rw [hcur, List.length_nil, Nat.zero_mod]
  word_eq k _ := by rw [hdl, delayAt_nil, List.getD_nil]; rfl

/-- Going back `k` places from `cur` in a ring of `T` words, without and with wrap. -/
theorem slotBehind_eq {cur T k : Nat} (hcur : cur < T) (hk : k < T) :
    (cur + T - k) % T = if k ≤ cur then cur - k else cur + T - k := by
  split
  case isTrue h => rw [Nat.sub_add_comm h, Nat.add_mod_right, Nat.mod_eq_of_lt (by omega)]
  case isFalse h => exact Nat.mod_eq_of_lt (by omega)

/-- The cursor's advance makes up for the place that the write took: seen from the new cursor, `k + 1`
places back is the slot `k` places behind the old one. -/
theorem slotBehind_advance {cur T k : Nat} (hcur : cur < T) (hk : k < T) :
    ((cur + 1) % T + T - 1 - k) % T = (cur + T - k) % T := by
  rcases Nat.lt_or_eq_of_le (Nat.succ_le_of_lt hcur) with hlt | heq
  · rw [Nat.mod_eq_of_lt hlt]
    congr 1
    omega
  · rw [slotBehind_eq hcur hk, if_pos (by omega), ← heq, Nat.mod_self, Nat.mod_eq_of_lt (by omega)]
    omega

section
variable {B : Band} {past : List SampleWord} (hB : RemembersPast B past)
include hB

/-- The cursor is inside the buffer (R78). -/
theorem RemembersPast.cur_lt : B.cur < B.tapCount :=
  hB.cur_eq ▸ Nat.mod_lt _ hB.tapCount_pos

/-- After the write of a call, the word `k` places behind the cursor holds the `k`-th most recent sample, the
new one among them (R72, R73). -/
theorem RemembersPast.delayAt_delayWrite (x : SampleWord) {k : Nat} (hk : k < B.tapCount) :
    delayAt (delayWrite B.dl B.cur x) ((B.cur + B.tapCount - k) % B.tapCount) = (x :: past).getD k 0 := by
  obtain ⟨hsame, hother, -, -⟩ := delayWrite_spec B.dl B.cur x hB.dl_wf
  cases k with
  | zero => rw [Nat.sub_zero, Nat.add_mod_right, Nat.mod_eq_of_lt hB.cur_lt, hsame, List.getD_cons_zero]
  | succ k =>
    have hne : (B.cur + B.tapCount - (k + 1)) % B.tapCount ≠ B.cur := by
      rw [slotBehind_eq hB.cur_lt hk]
      split <;> omega
    rw [hother _ hne, List.getD_cons_succ, ← hB.word_eq k (Nat.lt_of_succ_lt hk), Nat.add_comm k 1, Nat.sub_sub]

/-- A call adds its sample to the past (R78). -/
theorem RemembersPast.after_firApply (P : Params) (tap : Nat → Int) (x : SampleWord) :
    RemembersPast (firApply P tap B x).band (x :: past) where
  tapCount_pos := hB.tapCount_pos
  dl_wf := by
    obtain ⟨-, -, hwf, -⟩ := delayWrite_spec B.dl B.cur x hB.dl_wf
    exact hwf
  cur_eq := by
    rw [firApply_band_cur, tapCount_firApply, hB.cur_eq, Nat.mod_add_mod, List.length_cons]
  word_eq k hk := by
    rw [tapCount_firApply] at hk ⊢
    rw [firApply_band_dl, firApply_band_cur, slotBehind_advance hB.cur_lt hk, hB.delayAt_delayWrite x hk]

/-- The filtered sample is the convolution of the taps with the past, the new sample first (R73). -/
theorem RemembersPast.y_firApply (P : Params) (tap : Nat → Int) (x : SampleWord) :
    (firApply P tap B x).y = floorShr
      (∑ k ∈ Finset.range B.tapCount, tap k * sampleValue ((x :: past).getD k 0)) P.coefFrac := by
  rw [firApply_y_eq_sum]
  congr 1
  refine Finset.sum_congr rfl fun k hk => ?_
  rw [firApply_band_dl, hB.delayAt_delayWrite x (Finset.mem_range.1 hk)]

end

/-- The `n`-th call of a run, from a band that remembers the samples before the run. -/
theorem RemembersPast.result_of_firRun {P : Params} {tap : Nat → Int} {B : Band} {past xs : List SampleWord} {n : Nat}
    {r : FirResult} (hB : RemembersPast B past) (hr : (firRun P tap B xs)[n]? = some r) :
    r.y = floorShr (∑ k ∈ Finset.range B.tapCount,
        tap k * sampleValue (((xs.take (n + 1)).reverse ++ past).getD k 0)) P.coefFrac
      ∧ r.band.cur = (past.length + n + 1) % B.tapCount := by
  induction xs generalizing B past n with
  | nil => simp [firRun] at hr
  | cons x xs ih =>
    have hB' := hB.after_firApply P tap x
    cases n with
    | zero =>
      obtain rfl : firApply P tap B x = r := by simpa [firRun] using hr
      exact ⟨by simpa using hB.y_firApply P tap x, hB'.cur_eq⟩
    | succ n =>
      obtain ⟨hy, hcur⟩ := ih hB' hr
      refine ⟨by simpa using hy, hcur.trans ?_⟩
      rw [tapCount_firApply, List.length_cons, Nat.add_right_comm past.length 1 n, Nat.add_assoc _ n 1]

/-- A run has one result a sample. -/
theorem length_firRun (P : Params) (tap : Nat → Int) (B : Band) (xs : List SampleWord) :
    (firRun P tap B xs).length = xs.length := by
  induction xs generalizing B with
  | nil => rfl
  | cons x xs ih => rw [firRun, List.length_cons, List.length_cons, ih]

/-- The samples up to the `n`-th, newest first and 0 past the first, are the past samples of R73. -/
theorem sampleValue_getD_reverse_take {xs : List SampleWord} {n : Nat} (hn : n < xs.length) (k : Nat) :
    sampleValue ((xs.take (n + 1)).reverse.getD k 0) = pastSample xs n k := by
  have hlen : (xs.take (n + 1)).length = n + 1 := List.length_take_of_le hn
  unfold pastSample
  split
  case isTrue hk =>
    have hlast : n + 1 - 1 - k = n - k := rfl
    rw [List.getD_eq_getElem?_getD, List.getElem?_reverse (by omega), hlen, hlast,
      List.getElem?_take_of_lt (by omega), List.getD_eq_getElem?_getD]
  case isFalse hk =>
    rw [List.getD_eq_default _ _ (by rw [List.length_reverse, hlen]; omega)]
    rfl

/-- Settles O13: a run from construction, which remembers nothing. -/
theorem firComputesTheConvolution : Obligations.FirComputesTheConvolution := by
  intro P tap B xs n r hT hdl hcur hr
  have hn : n < xs.length := length_firRun P tap B xs ▸ (List.getElem?_eq_some_iff.1 hr).1
  obtain ⟨hy, hcur'⟩ := (remembersPast_nil hT hdl hcur).result_of_firRun hr
  refine ⟨?_, by simpa using hcur'⟩
  simpa only [List.append_nil, sampleValue_getD_reverse_take hn] using hy

end Sys2Proof.Machine

/-! ## Proofs: the window maximum of unit SWM (R83 to R85, R88, R89) -/

namespace Sys2Proof.Machine

/-- The condition of the capacity guard (R85). -/
theorem guardFired_swmPush_iff (P : Params) (w : Nat) (d : List DqEntry) (v : Int) (idx : Index) :
    (swmPush P w d v idx).guardFired = true ↔ (evict w v idx d).length = P.dqCap := by
  rw [swmPush_guardFired, dequeFull, beq_iff_eq]

/-- A push with the guard firing loses the old end of what eviction keeps (R85). -/
theorem swmPush_dq_of_guardFired {P : Params} {w : Nat} {d : List DqEntry} {v : Int} {idx : Index}
    (h : (swmPush P w d v idx).guardFired = true) :
    (swmPush P w d v idx).dq = (evict w v idx d).drop 1 ++ [⟨v, idx⟩] := by
  rw [swmPush_guardFired] at h
  rw [swmPush_dq, makeRoom, if_pos h, List.drop_one]

/-- A push without the guard loses nothing of what eviction keeps (R85). -/
theorem swmPush_dq_of_not_guardFired {P : Params} {w : Nat} {d : List DqEntry} {v : Int} {idx : Index}
    (h : ¬ (swmPush P w d v idx).guardFired = true) :
    (swmPush P w d v idx).dq = evict w v idx d ++ [⟨v, idx⟩] := by
  rw [swmPush_guardFired] at h
  rw [swmPush_dq, makeRoom, if_neg h]

/-- Settles O19. -/
theorem capacityGuardDropsTheOldest : Obligations.CapacityGuardDropsTheOldest := by
  intro P w d v idx r kept
  have hguard : r.guardFired = true ↔ kept.length = P.dqCap := guardFired_swmPush_iff P w d v idx
  exact ⟨hguard, fun hfull => swmPush_dq_of_guardFired (hguard.2 hfull),
    fun hroom => swmPush_dq_of_not_guardFired (mt hguard.1 hroom), length_swmPush_le P w v idx⟩

/-- Of decreasing values, eviction keeps the entries of `dropStale` above the incoming value (R84). -/
theorem evict_eq_filter (w : Nat) {d : List DqEntry} (v : Int) (idx : Index) (hd : StrictlyDecreasing d) :
    evict w v idx d = (dropStale w idx d).filter fun e => decide (v < e.val) :=
  dropDominated_eq_filter v _ (List.Pairwise.sublist (List.dropWhile_sublist _) hd)

/-- What `dropStale` drops, the stale stretch at the old end, and what it keeps make up the deque (R83). -/
theorem exists_stale_append_dropStale (w : Nat) (idx : Index) (d : List DqEntry) :
    ∃ stale, d = stale ++ dropStale w idx d ∧ ∀ e ∈ stale, w ≤ age idx e.idx :=
  ⟨d.takeWhile fun e => decide (w ≤ age idx e.idx), List.takeWhile_append_dropWhile.symm,
    fun _ he => by simpa using List.mem_takeWhile_imp he⟩

/-- `dropStale` stops at a fresh entry (R83). -/
theorem age_lt_of_head?_dropStale {w : Nat} {idx : Index} {d : List DqEntry} {e : DqEntry}
    (he : (dropStale w idx d).head? = some e) : age idx e.idx < w := by
  have hstop := List.head?_dropWhile_not (fun e => decide (w ≤ age idx e.idx)) d
  rw [← dropStale, he] at hstop
  exact Nat.lt_of_not_le (of_decide_eq_false hstop)

/-- Settles O20: the fresh part is what `dropStale` keeps. -/
theorem evictionRemovesStaleAndDominated : Obligations.EvictionRemovesStaleAndDominated := by
  intro w d v idx hd
  obtain ⟨stale, happ, hstale⟩ := exists_stale_append_dropStale w idx d
  exact ⟨stale, dropStale w idx d, happ, hstale, fun _ he => age_lt_of_head?_dropStale he,
    evict_eq_filter w v idx hd⟩

/-- A fresh entry above the incoming value survives eviction (R83, R84). -/
theorem mem_evict_of_fresh {w : Nat} {v : Int} {idx : Index} {d : List DqEntry} (hd : StrictlyDecreasing d)
    {e : DqEntry} (he : e ∈ d) (hfresh : age idx e.idx < w) (hv : v < e.val) : e ∈ evict w v idx d := by
  obtain ⟨stale, happ, hstale⟩ := exists_stale_append_dropStale w idx d
  rw [happ, List.mem_append] at he
  have hkept : e ∈ dropStale w idx d := he.resolve_left fun hin => (hstale e hin).not_gt hfresh
  rw [evict_eq_filter w v idx hd]
  exact List.mem_filter.2 ⟨hkept, decide_eq_true hv⟩

/-- With the next index every entry inside a window ages by 1 (R14, R147). -/
theorem InWindow.age_next {now : Index} {w : Nat} {d : List DqEntry} (h : InWindow now w d) (hsmall : w < 2 ^ 32)
    {e : DqEntry} (he : e ∈ d) : age (now + 1) e.idx = age now e.idx + 1 := by
  have hyoung := h.1 e he
  exact age_add_one (by omega)

/-- The invariant behind R88. With `past` the values pushed since construction, newest first, and `now` the
index of the last push: an entry of age `k` holds the `k`-th past value, and every past value of the window is
covered by an entry at least as large and no older. -/
structure TracksWindow (now : Index) (w : Nat) (d : List DqEntry) (past : List Int) : Prop where
  decreasing : StrictlyDecreasing d
  inWindow : InWindow now w d
  val_eq : ∀ e ∈ d, past[age now e.idx]? = some e.val
  covered : ∀ k u, k < w → past[k]? = some u → ∃ e ∈ d, age now e.idx ≤ k ∧ u ≤ e.val

/-- An empty deque tracks the empty past, whatever the index. -/
theorem tracksWindow_nil (now : Index) (w : Nat) : TracksWindow now w [] [] where
  decreasing := List.Pairwise.nil
  inWindow := ⟨by simp, List.Pairwise.nil⟩
  val_eq := by simp
  covered := by simp

section
variable {P : Params} (hP : P.IsLegal) {now : Index} {w : Nat} (hw : 1 ≤ w) (hcap : w ≤ P.dqCap)
  {d : List DqEntry} {past : List Int} (hd : TracksWindow now w d past)
include hP hw hcap hd

/-- A push with the next index adds its value to the past (R81, R88). A covering entry that leaves as dominated
hands its cover to the pushed pair; it cannot leave as stale while the value it covers is in the window. -/
theorem TracksWindow.after_swmPush (v : Int) :
    TracksWindow (now + 1) w (swmPush P w d v (now + 1)).dq (v :: past) := by
  obtain ⟨hguard, hin⟩ := inWindow_swmPush hP hd.inWindow hw hcap v
  have hdq := swmPush_dq_of_not_guardFired (Bool.eq_false_iff.1 hguard)
  have hsmall := hP.dqCap_lt
  have hnext : ∀ e ∈ d, age (now + 1) e.idx = age now e.idx + 1 := fun e he =>
    hd.inWindow.age_next (by omega) he
  have hpushed : (⟨v, now + 1⟩ : DqEntry) ∈ (swmPush P w d v (now + 1)).dq := hdq ▸ List.mem_concat_self
  refine ⟨strictlyDecreasing_swmPush P w v _ hd.decreasing, hin, fun e he => ?_, fun k u hk hu => ?_⟩
  · rcases mem_swmPush he with hold | rfl
    · rw [hnext e hold, List.getElem?_cons_succ, hd.val_eq e hold]
    · rw [age_self, List.getElem?_cons_zero]
  · cases k with
    | zero => exact ⟨_, hpushed, (age_self _).le, (Option.some.inj hu).ge⟩
    | succ k =>
      obtain ⟨e, he, hage, hue⟩ := hd.covered k u (Nat.lt_of_succ_lt hk) hu
      have hage' : age (now + 1) e.idx ≤ k + 1 := hnext e he ▸ Nat.succ_le_succ hage
      by_cases hv : v < e.val
      · have hkept := mem_evict_of_fresh hd.decreasing he (hage'.trans_lt hk) hv
        exact ⟨e, hdq ▸ List.mem_append_left _ hkept, hage', hue⟩
      · exact ⟨_, hpushed, (age_self (now + 1)).le.trans (Nat.zero_le _), hue.trans (not_lt.1 hv)⟩

/-- A push with the next index returns the maximum of the last `w` values, the pushed one among them (R88). -/
theorem TracksWindow.wm_isMax (v : Int) :
    (swmPush P w d v (now + 1)).wm ∈ (v :: past).take w
      ∧ ∀ u ∈ (v :: past).take w, u ≤ (swmPush P w d v (now + 1)).wm := by
  have hd' := hd.after_swmPush hP hw hcap v
  obtain ⟨e, he, hwm⟩ := exists_mem_swmPush_wm P w d v (now + 1)
  refine ⟨?_, fun u hu => ?_⟩
  · have hyoung := hd'.inWindow.1 e he
    refine List.mem_of_getElem? (i := age (now + 1) e.idx) ?_
    rw [List.getElem?_take_of_lt hyoung, hd'.val_eq e he, hwm]
  · obtain ⟨k, hk⟩ := List.mem_iff_getElem?.1 hu
    rw [List.getElem?_take, Option.ite_none_right_eq_some] at hk
    obtain ⟨hkw, hpast⟩ := hk
    obtain ⟨c, hc, -, huc⟩ := hd'.covered k u hkw hpast
    exact huc.trans (le_of_mem_of_head? hd'.decreasing (swmPush_wm P w d v (now + 1)) hc)

/-- The `n`-th result of a run is a push with the next index on a deque that tracks the values before it. -/
theorem TracksWindow.push_of_swmRun {vs : List Int} {n : Nat} {r : SwmResult}
    (hr : (swmRun P w (now + 1) d vs)[n]? = some r) :
    ∃ now' d' past' v, TracksWindow now' w d' past' ∧ r = swmPush P w d' v (now' + 1)
      ∧ v :: past' = (vs.take (n + 1)).reverse ++ past := by
  induction vs generalizing now d past n with
  | nil => simp [swmRun] at hr
  | cons v vs ih =>
    cases n with
    | zero => exact ⟨now, d, past, v, hd, (Option.some.inj hr).symm, rfl⟩
    | succ n =>
      obtain ⟨now', d', past', v', hd', hpush, hpast⟩ := ih (hd.after_swmPush hP hw hcap v) hr
      exact ⟨now', d', past', v', hd', hpush, by simpa using hpast⟩

end

/-- The `n`-th result of a run from construction, for any start index (R88, R147). -/
theorem push_of_swmRun_nil {P : Params} (hP : P.IsLegal) {w : Nat} (hw : 1 ≤ w) (hcap : w ≤ P.dqCap)
    {idx0 : Index} {vs : List Int} {n : Nat} {r : SwmResult} (hr : (swmRun P w idx0 [] vs)[n]? = some r) :
    ∃ now d past v, TracksWindow now w d past ∧ r = swmPush P w d v (now + 1)
      ∧ v :: past = (vs.take (n + 1)).reverse := by
  have hstart : idx0 - 1 + 1 = idx0 := BitVec.sub_add_cancel idx0 1
  simpa only [List.append_nil] using
    (tracksWindow_nil (idx0 - 1) w).push_of_swmRun hP hw hcap (by rwa [hstart])

/-- A run has one result a pushed value. -/
theorem length_swmRun (P : Params) (w : Nat) (idx : Index) (d : List DqEntry) (vs : List Int) :
    (swmRun P w idx d vs).length = vs.length := by
  induction vs generalizing idx d with
  | nil => rfl
  | cons v vs ih => rw [swmRun, List.length_cons, List.length_cons, ih]

/-- The window of the `n`-th push, read newest first. -/
theorem reverse_trailingWindow (w : Nat) {n : Nat} {vs : List Int} (hn : n < vs.length) :
    (trailingWindow w n vs).reverse = (vs.take (n + 1)).reverse.take w := by
  rw [trailingWindow, List.take_reverse, List.length_take_of_le hn]

/-- Settles O16: a run from construction pushes on a deque that tracks the window. -/
theorem pushReturnsTheWindowMaximum : Obligations.PushReturnsTheWindowMaximum := by
  intro P w idx0 vs n r hlegal hw hcap hr
  have hP := (Params.legal_iff P).1 hlegal
  have hn : n < vs.length := length_swmRun P w idx0 [] vs ▸ (List.getElem?_eq_some_iff.1 hr).1
  obtain ⟨now, d, past, v, hd, rfl, hpast⟩ := push_of_swmRun_nil hP hw hcap hr
  have hmem : ∀ u, u ∈ trailingWindow w n vs ↔ u ∈ (v :: past).take w := fun u => by
    rw [hpast, ← reverse_trailingWindow w hn, List.mem_reverse]
  obtain ⟨hwm, hmax⟩ := hd.wm_isMax hP hw hcap v
  exact ⟨(hmem _).2 hwm, fun u hu => hmax u ((hmem u).1 hu)⟩

/-- Settles O17: consecutive indices keep the deque inside its window, and ages there are different. -/
theorem dequeStaysWithinTheWindow : Obligations.DequeStaysWithinTheWindow := by
  intro P w idx0 vs hlegal hw hcap r hr
  have hP := (Params.legal_iff P).1 hlegal
  obtain ⟨n, hn⟩ := List.mem_iff_getElem?.1 hr
  obtain ⟨now, d, past, v, hd, rfl, -⟩ := push_of_swmRun_nil hP hw hcap hn
  obtain ⟨hguard, hin⟩ := inWindow_swmPush hP hd.inWindow hw hcap v
  exact ⟨hin.length_le, hguard⟩

end Sys2Proof.Machine

/-! ## Proofs: the top of the counters (R8, R9, R13) -/

namespace Sys2Proof

/-- Every legal record has 32-bit counters. -/
theorem Params.IsLegal.cntMax_eq {P : Params} (hP : P.IsLegal) : P.cntMax = 2 ^ 32 - 1 := by
  rw [Params.cntMax, hP.cntW_eq]

/-- No 32-bit word is above `CNT_MAX`. -/
theorem Params.IsLegal.toNat_le_cntMax {P : Params} (hP : P.IsLegal) (v : Word) : v.toNat ≤ P.cntMax := by
  have := v.isLt
  rw [hP.cntMax_eq]
  omega

end Sys2Proof

/-! ## Proofs: one step of unit PKD (R91 to R97) -/

namespace Sys2Proof.Machine

/-- `over` as a comparison of integers (R94). -/
theorem overThreshold_iff (P : Params) (y : Int) (thr : Nat) :
    overThreshold P y thr = true ↔ (thr : Int) ≤ y * 2 ^ P.sensFrac := decide_eq_true_iff

/-- `deb` as a comparison of numbers (R95). -/
theorem debounceOk_iff (sslp minDist : Word) : debounceOk sslp minDist = true ↔ minDist.toNat < sslp.toNat :=
  decide_eq_true_iff

/-- The band after a step on a peak (R96). -/
theorem pkdStep_band_of_peak {P : Params} {fs : Word} {B : Band} {y wm : Int}
    (h : (pkdStep P fs B y wm).peak = true) : (pkdStep P fs B y wm).band =
      { B with thr := threshold P B wm, bpm := bpmEstimate fs B.sslp, sslp := 0 } := by
  rw [pkdStep_peak_iff] at h
  rw [pkdStep_peak P fs B y wm h]

/-- The band after a step without a peak (R97). -/
theorem pkdStep_band_of_not_peak {P : Params} {fs : Word} {B : Band} {y wm : Int}
    (h : (pkdStep P fs B y wm).peak = false) : (pkdStep P fs B y wm).band =
      { B with thr := threshold P B wm, pos := wrapInc P B.pos, sslp := satInc P B.sslp } := by
  rw [pkdStep_peak_iff] at h
  rw [pkdStep_nonPeak P fs B y wm h]

/-- No step writes the minimum distance (R91). -/
@[simp] theorem pkdStep_minDist (P : Params) (fs : Word) (B : Band) (y wm : Int) :
    (pkdStep P fs B y wm).band.minDist = B.minDist := by
  obtain ⟨_, _, _, _, h⟩ := pkdStep_frame P fs B y wm
  rw [h]

/-- A step that reports a peak has passed the debounce (R95, R96). -/
theorem minDist_lt_sslp_of_peak {P : Params} {fs : Word} {B : Band} {y wm : Int}
    (h : (pkdStep P fs B y wm).peak = true) : B.minDist.toNat < B.sslp.toNat := by
  rw [pkdStep_peak_iff, isPeak_iff] at h
  obtain ⟨-, hdeb⟩ := h
  exact hdeb

/-- Settles O21, one path of the step a clause. -/
theorem peakStepFollowsTheFiveSteps : Obligations.PeakStepFollowsTheFiveSteps := by
  intro P fs B y wm r thr
  have hthr : r.band.thr = threshold P B wm := pkdStep_thr P fs B y wm
  have hcast : (threshold P B wm : Int) = thr := threshold_cast P B wm
  refine ⟨hthr ▸ hcast, ?_, fun h => ?_, fun h => ?_⟩
  · rw [pkdStep_peak_iff, isPeak_iff, hcast]
  · rw [hthr]
    exact pkdStep_band_of_peak h
  · rw [hthr]
    exact pkdStep_band_of_not_peak h

/-- The threshold is at least the scaled floor (R93). -/
theorem floor_le_threshold (P : Params) (B : Band) (wm : Int) :
    B.floor.toNat * 2 ^ P.sensFrac ≤ threshold P B wm := by
  have h : (B.floor.toNat : Int) * 2 ^ P.sensFrac ≤ threshold P B wm := threshold_cast P B wm ▸ le_max_right _ _
  exact_mod_cast h

/-- Settles O22. -/
theorem thresholdFitsItsWidth : Obligations.ThresholdFitsItsWidth := fun P B wm hlegal hwm hsens hfloor =>
  ⟨floor_le_threshold P B wm, threshold_lt ((Params.legal_iff P).1 hlegal) hwm hsens hfloor⟩

/-- The threshold is 0 exactly when neither side of its maximum is positive (R94). -/
theorem threshold_eq_zero_iff (P : Params) (B : Band) (wm : Int) :
    threshold P B wm = 0 ↔ B.floor = 0 ∧ wm * B.sens.toNat ≤ 0 := by
  have hpow : (0 : Int) < 2 ^ P.sensFrac := by positivity
  have hfloor : (B.floor.toNat : Int) * 2 ^ P.sensFrac ≤ 0 ↔ B.floor = 0 := by
    rw [← not_lt, mul_pos_iff_of_pos_right hpow]
    bv_omega
  have hzero : threshold P B wm = 0 ↔ (threshold P B wm : Int) ≤ 0 := by omega
  rw [hzero, threshold_cast, max_le_iff, hfloor, and_comm]

/-- A negative filtered sample is below every threshold, because no threshold is negative (R94). -/
theorem overThreshold_of_neg (P : Params) {y : Int} (hy : y < 0) (thr : Nat) : overThreshold P y thr = false := by
  have hprod : y * 2 ^ P.sensFrac < 0 := mul_neg_of_neg_of_pos hy (by positivity)
  rw [← Bool.not_eq_true, overThreshold_iff]
  omega

/-- A zero sample is over the threshold 0 only (R94). -/
theorem overThreshold_zero_iff (P : Params) (thr : Nat) : overThreshold P 0 thr = true ↔ thr = 0 := by
  rw [overThreshold_iff, zero_mul]
  omega

/-- A sample that is not over the threshold is no peak (R97). -/
theorem pkdStep_peak_of_not_over {P : Params} {B : Band} {y wm : Int}
    (h : overThreshold P y (threshold P B wm) = false) (fs : Word) : (pkdStep P fs B y wm).peak = false := by
  rw [pkdStep_peak_iff, isPeak, h, Bool.false_and]

/-- Settles O23. -/
theorem negativeSamplesNeverPeak : Obligations.NegativeSamplesNeverPeak := by
  intro P fs B y wm
  refine ⟨fun hy => ?_, overThreshold_zero_iff P _, threshold_eq_zero_iff P B wm⟩
  have hover := overThreshold_of_neg P hy (threshold P B wm)
  exact ⟨hover, pkdStep_peak_of_not_over hover fs⟩

end Sys2Proof.Machine

/-! ## Proofs: the BPM estimate (R12, R100) -/

namespace Sys2Proof.Machine

/-- A quotient below one half rounds to 0, and no other does (R12). -/
theorem rhu_eq_zero_iff (n : Nat) {d : Nat} (hd : 1 ≤ d) : rhu n d = 0 ↔ 2 * n < d := by
  rw [rhu, Nat.div_eq_zero_iff_lt (by omega)]
  omega

/-- A rate of at most 25 bits is small enough for the first estimate to round to 0 (R100; log 19). -/
theorem rate_lt_cntMax {P : Params} (hP : P.IsLegal) {fs : Word} (hfs : fs.toNat ≤ P.fsMax) (hw : P.fsW ≤ 25) :
    2 * (60 * fs.toNat) < P.cntMax := by
  have hpow : 2 ^ P.fsW ≤ 2 ^ 25 := Nat.pow_le_pow_right (by norm_num) hw
  rw [Params.fsMax] at hfs
  rw [hP.cntMax_eq]
  omega

/-- Settles O27: the debounce keeps the divisor from 0, and the estimate is a rounded quotient. -/
theorem bpmEstimateIsBounded : Obligations.BpmEstimateIsBounded := by
  intro P fs B y wm hlegal hfs hpeak
  have hP := (Params.legal_iff P).1 hlegal
  have hpos : 1 ≤ B.sslp.toNat := Nat.one_le_of_lt (minDist_lt_sslp_of_peak hpeak)
  rw [pkdStep_band_of_peak hpeak]
  refine ⟨hpos, rhu_le _ hpos, bpmEstimate_lt hP hfs hpos, fun hsat hlt => ?_, rate_lt_cntMax hP hfs⟩
  exact (rhu_eq_zero_iff _ hpos).2 (hsat ▸ hlt)

end Sys2Proof.Machine

/-! ## Proofs: the debounce machine (R95, R101) -/

namespace Sys2Proof.Machine

/-- `ARMED` on the counter (R101). -/
theorem debounceState_eq_armed_iff (B : Band) : debounceState B = .armed ↔ B.minDist.toNat < B.sslp.toNat := by
  rw [debounceState, ← debounceOk_iff]
  split <;> simp [*]

/-- `HOLDOFF` on the counter (R101). -/
theorem debounceState_eq_holdoff_iff (B : Band) :
    debounceState B = .holdoff ↔ B.sslp.toNat ≤ B.minDist.toNat := by
  rw [← Nat.not_lt, ← debounceState_eq_armed_iff]
  cases debounceState B <;> decide

/-- The counter after a step without a peak (R98). -/
theorem toNat_pkdStep_sslp {P : Params} (hP : P.IsLegal) {fs : Word} {B : Band} {y wm : Int}
    (h : (pkdStep P fs B y wm).peak = false) :
    (pkdStep P fs B y wm).band.sslp.toNat = min (B.sslp.toNat + 1) P.cntMax := by
  rw [pkdStep_band_of_not_peak h]
  exact toNat_satInc hP B.sslp

/-- Settles O24: the state before the step says whether `deb` holds, the state after it follows from the
counter, 0 on a peak and else counted up and saturated. -/
theorem debounceMachineTransitions : Obligations.DebounceMachineTransitions := by
  intro P fs B y wm hlegal r isOver
  have hP := (Params.legal_iff P).1 hlegal
  have hpeak : r.peak = (isOver && debounceOk B.sslp B.minDist) := pkdStep_peak_iff P fs B y wm
  have hminDist : r.band.minDist = B.minDist := pkdStep_minDist P fs B y wm
  have hmax := hP.toNat_le_cntMax B.minDist
  refine ⟨fun harmed hover => ?_, fun harmed hover => ?_, fun hholdoff => ?_⟩
  · have hdeb := (debounceOk_iff _ _).2 ((debounceState_eq_armed_iff B).1 harmed)
    have hr : r.peak = true := by rw [hpeak, hover, hdeb, Bool.true_and]
    refine ⟨hr, (debounceState_eq_holdoff_iff _).2 ?_⟩
    rw [pkdStep_band_of_peak hr]
    exact Nat.zero_le _
  · have hr : r.peak = false := by rw [hpeak, hover, Bool.false_and]
    refine ⟨hr, (debounceState_eq_armed_iff _).2 ?_⟩
    have hsslp := hP.toNat_le_cntMax B.sslp
    rw [debounceState_eq_armed_iff] at harmed
    rw [hminDist, toNat_pkdStep_sslp hP hr]
    omega
  · rw [debounceState_eq_holdoff_iff] at hholdoff
    have hr : r.peak = false := Bool.eq_false_iff.2 fun h => by
      have := minDist_lt_sslp_of_peak h
      omega
    refine ⟨hr, ?_⟩
    rw [debounceState_eq_holdoff_iff, hminDist, toNat_pkdStep_sslp hP hr]
    omega

end Sys2Proof.Machine

/-! ## Proofs: unit PKD over a sequence of samples (R97 to R99, R102) -/

namespace Sys2Proof.Machine

/-- `B'` is what `n` steps without a peak make of `B`, in the registers that the next peak depends on
(R97 to R99). -/
structure AfterNonPeaks (P : Params) (n : Nat) (B B' : Band) : Prop where
  sslp_eq : B'.sslp.toNat = min (B.sslp.toNat + n) P.cntMax
  pos_eq : B'.pos.toNat = (B.pos.toNat + n) % 2 ^ P.posW
  bpm_eq : B'.bpm = B.bpm
  minDist_eq : B'.minDist = B.minDist

section
variable {P : Params} (hP : P.IsLegal)
include hP

/-- The start of a stretch. -/
theorem afterNonPeaks_zero (B : Band) : AfterNonPeaks P 0 B B where
  sslp_eq := (min_eq_left (hP.toNat_le_cntMax B.sslp)).symm
  pos_eq := by rw [hP.posW_eq]; exact (Nat.mod_eq_of_lt B.pos.isLt).symm
  bpm_eq := rfl
  minDist_eq := rfl

/-- One more step without a peak: the counter saturates and the position wraps once for the whole stretch. -/
theorem AfterNonPeaks.step {n : Nat} {fs : Word} {B B' : Band} {y wm : Int} (hB : AfterNonPeaks P n B B')
    (h : (pkdStep P fs B' y wm).peak = false) : AfterNonPeaks P (n + 1) B (pkdStep P fs B' y wm).band where
  sslp_eq := by
    rw [toNat_pkdStep_sslp hP h, hB.sslp_eq]
    omega
  pos_eq := by
    rw [pkdStep_band_of_not_peak h]
    dsimp only
    rw [toNat_wrapInc hP, hB.pos_eq, Nat.mod_add_mod, Nat.add_assoc]
  bpm_eq := by
    rw [pkdStep_band_of_not_peak h]
    exact hB.bpm_eq
  minDist_eq := (pkdStep_minDist ..).trans hB.minDist_eq

/-- The `n`-th result of a run without a peak before it is a step on what `n` non-peaks leave. -/
theorem AfterNonPeaks.step_of_pkdRun {m n : Nat} {fs : Word} {B₀ B : Band} {samples : List (Int × Int)}
    {r : PkdResult} (hB : AfterNonPeaks P m B₀ B) (hr : (pkdRun P fs B samples)[n]? = some r)
    (hno : ∀ q ∈ (pkdRun P fs B samples).take n, q.peak = false) :
    ∃ B' y wm, r = pkdStep P fs B' y wm ∧ AfterNonPeaks P (m + n) B₀ B' := by
  induction samples generalizing B m n with
  | nil => simp [pkdRun] at hr
  | cons sample samples ih =>
    obtain ⟨y, wm⟩ := sample
    cases n with
    | zero => exact ⟨B, y, wm, (Option.some.inj hr).symm, hB⟩
    | succ n =>
      rw [pkdRun, List.take_succ_cons, List.forall_mem_cons] at hno
      obtain ⟨hfirst, hrest⟩ := hno
      obtain ⟨B', y', wm', hstep, hB'⟩ := ih (hB.step hP hfirst) hr hrest
      exact ⟨B', y', wm', hstep, by rwa [Nat.add_right_comm, Nat.add_assoc] at hB'⟩

end

/-- Settles O26: the stretch before the last sample, and the last sample's own step. -/
theorem countersBetweenPeaks : Obligations.CountersBetweenPeaks := by
  intro P fs B samples n r hlegal hr hno
  have hP := (Params.legal_iff P).1 hlegal
  rw [List.take_add_one, hr, List.forall_mem_append] at hno
  obtain ⟨hbefore, hlast⟩ := hno
  obtain ⟨B', y, wm, rfl, hB'⟩ := (afterNonPeaks_zero hP B).step_of_pkdRun hP hr hbefore
  obtain ⟨hsslp, hpos, hbpm, -⟩ := hB'.step hP (hlast _ (Option.mem_toList.2 rfl))
  rw [Nat.zero_add] at hsslp hpos
  exact ⟨hsslp, hpos, hbpm⟩

/-- What follows the `i`-th result of a run is a run from the band it left. -/
theorem drop_pkdRun {P : Params} {fs : Word} {B : Band} {samples : List (Int × Int)} {i : Nat} {r : PkdResult}
    (hr : (pkdRun P fs B samples)[i]? = some r) :
    (pkdRun P fs B samples).drop (i + 1) = pkdRun P fs r.band (samples.drop (i + 1)) := by
  induction samples generalizing B i with
  | nil => simp [pkdRun] at hr
  | cons sample samples ih =>
    cases i with
    | zero =>
      obtain rfl : pkdStep P fs B sample.1 sample.2 = r := Option.some.inj hr
      rfl
    | succ i => exact ih hr

/-- The `i`-th result of a run is a step on some band with the run's minimum distance, which no step writes. -/
theorem exists_step_of_pkdRun {P : Params} {fs : Word} {B : Band} {samples : List (Int × Int)} {i : Nat}
    {r : PkdResult} (hr : (pkdRun P fs B samples)[i]? = some r) :
    ∃ B' y wm, r = pkdStep P fs B' y wm ∧ B'.minDist = B.minDist := by
  induction samples generalizing B i with
  | nil => simp [pkdRun] at hr
  | cons sample samples ih =>
    cases i with
    | zero => exact ⟨B, sample.1, sample.2, (Option.some.inj hr).symm, rfl⟩
    | succ i =>
      obtain ⟨B', y, wm, hstep, hminDist⟩ := ih hr
      exact ⟨B', y, wm, hstep, hminDist.trans (pkdStep_minDist ..)⟩

/-- With `n` non-peaks after the `i`-th sample, the next step is one on what they leave of the band the `i`-th
sample left. -/
theorem exists_step_after_nonPeaks {P : Params} (hP : P.IsLegal) {fs : Word} {B : Band} {samples : List (Int × Int)}
    {i n : Nat} {ri rj : PkdResult} (hi : (pkdRun P fs B samples)[i]? = some ri)
    (hj : (pkdRun P fs B samples)[i + 1 + n]? = some rj)
    (hno : ∀ k < n, ∀ rk, (pkdRun P fs B samples)[i + 1 + k]? = some rk → rk.peak = false) :
    ∃ B' y wm, rj = pkdStep P fs B' y wm ∧ AfterNonPeaks P n ri.band B' := by
  simp only [← List.getElem?_drop, drop_pkdRun hi] at hj hno
  have hbetween : ∀ q ∈ (pkdRun P fs ri.band (samples.drop (i + 1))).take n, q.peak = false := fun q hq => by
    obtain ⟨k, hk⟩ := List.mem_iff_getElem?.1 hq
    rw [List.getElem?_take, Option.ite_none_right_eq_some] at hk
    obtain ⟨hkn, hk⟩ := hk
    exact hno k hkn q hk
  obtain ⟨B', y, wm, hstep, hB'⟩ := (afterNonPeaks_zero hP ri.band).step_of_pkdRun hP hj hbetween
  exact ⟨B', y, wm, hstep, by rwa [Nat.zero_add] at hB'⟩

/-- Settles O25: the first peak leaves the counter at 0, so at the second peak it counts the non-peaks between
them, which the debounce compares with `MINDIST`. -/
theorem successivePeaksAreSpaced : Obligations.SuccessivePeaksAreSpaced := by
  intro P fs B samples i j ri rj hlegal hij hi hj hpi hpj hno
  have hP := (Params.legal_iff P).1 hlegal
  obtain ⟨n, rfl⟩ : ∃ n, j = i + 1 + n := ⟨j - i - 1, by omega⟩
  have hn : i + 1 + n - i - 1 = n := by omega
  rw [hn]
  obtain ⟨B₂, y₂, wm₂, rfl, hsslp, hpos, -, hminDist⟩ := exists_step_after_nonPeaks hP hi hj
    fun k hk rk => hno (i + 1 + k) rk (by omega) (by omega)
  obtain ⟨B₁, y₁, wm₁, rfl, hminDist₁⟩ := exists_step_of_pkdRun hi
  have hcount : B₂.sslp.toNat = min n P.cntMax := by
    rw [hsslp, pkdStep_band_of_peak hpi]
    simp
  have hdeb := minDist_lt_sslp_of_peak hpj
  rw [hminDist, pkdStep_minDist, hminDist₁, hcount] at hdeb
  rw [pkdStep_band_of_peak hpj]
  refine ⟨?_, by omega, fun hlt => ?_⟩
  · rw [hP.posW_eq] at hpos
    bv_omega
  · have hexact : B₂.sslp.toNat = n := by omega
    exact congrArg (rhu _) hexact

end Sys2Proof.Machine

/-! ## Proofs: the all-zero stream (R94, R102 (b), R104) -/

namespace Sys2Proof.Machine

/-- What the all-zero stream needs of a band: an all-zero delay line and a positive floor (R102 (b); log 5). -/
def Silent (B : Band) : Prop := B.dl = [] ∧ 1 ≤ B.floor.toNat

/-- The filter answers a zero sample on a zero delay line with 0, whatever the taps (R72). -/
theorem firApply_y_zero (P : Params) (tap : Nat → Int) {B : Band} (hdl : B.dl = []) :
    (firApply P tap B 0).y = 0 := by
  have hdl' : (firApply P tap B 0).band.dl = [] := by rw [firApply_band_dl, hdl]; exact delayWrite_nil_zero _
  have hword : ∀ j, sampleValue (delayAt [] j) = 0 := fun _ => rfl
  simp only [firApply_y_eq_sum, hdl', hword, mul_zero, Finset.sum_const_zero, floorShr, Int.zero_ediv]

/-- A filtered sample of 0 is no peak over a positive floor (R94). -/
theorem pkdStep_zero_peak {B : Band} (hfloor : 1 ≤ B.floor.toNat) (P : Params) (fs : Word) (wm : Int) :
    (pkdStep P fs B 0 wm).peak = false := by
  refine pkdStep_peak_of_not_over (Bool.eq_false_iff.2 fun hover => ?_) fs
  rw [overThreshold_zero_iff, threshold_eq_zero_iff] at hover
  obtain ⟨hzero, -⟩ := hover
  simp [hzero] at hfloor

section
variable (P : Params) (fs : Word) (tap : Nat → Int) {B : Band} (hB : Silent B) (idx : Index)
include hB

/-- A silent band does not peak on a zero sample (R102 (b)). -/
theorem bandPipeline_zero_peak : (bandPipeline P fs tap B 0 idx).peak = false := by
  obtain ⟨hdl, hfloor⟩ := hB
  rw [bandPipeline, firApply_y_zero P tap hdl]
  refine pkdStep_zero_peak ?_ P fs _
  exact hfloor

/-- A silent band stays silent on a zero sample. -/
theorem silent_bandPipeline_zero : Silent (bandPipeline P fs tap B 0 idx).band := by
  obtain ⟨hdl, hfloor⟩ := hB
  obtain ⟨thr, sslp, pos, bpm, h⟩ := bandPipeline_frame P fs tap B 0 idx
  rw [h]
  exact ⟨hdl ▸ delayWrite_nil_zero _, hfloor⟩

end

/-- The legal ranges are of the configuration alone (R22 to R25). -/
theorem BandLegal.congr {P : Params} {B B' : Band} (hL : BandLegal P B) (h : SameConfig B' B) : BandLegal P B' := by
  obtain ⟨hntaps, hwlen, hsens, hfloor, -, -⟩ := h
  rwa [BandLegal, hntaps, hwlen, hsens, hfloor]

/-- A SAMPLE in RUN leaves the configuration as legal as it was (R37). -/
theorem configLegal_processSample {P : Params} (hP : P.IsLegal) {s : State} (hL : ConfigLegal P s)
    (x : SampleWord) (idx : Index) : ConfigLegal P (processSample P x idx s) := by
  have hd := sampleDefined_of_configLegal hL
  obtain ⟨hfs1, hfs, hnb1, hnb, hbands⟩ := hL
  rw [ConfigLegal, processSample_fs, processSample_nbands]
  exact ⟨hfs1, hfs, hnb1, hnb, fun b hb => (hbands b hb).congr (sameConfig_processSample hP hd x idx b)⟩

/-- The PEAKS response of a SAMPLE on which no band peaks is its header with an empty mask (R62, R110). -/
theorem out_processSample_of_no_peak {P : Params} {x : SampleWord} {idx : Index} {s : State}
    (hn : s.nbands.toNat ≤ Config.slots) (hno : ∀ b, peaksOn P x idx s b = false) :
    (processSample P x idx s).out = s.out ++ [⟨0x20000000, true⟩] := by
  have hmask : BitVec.ofNat 8 (sampleLoop P x idx s).mask = 0 := BitVec.eq_of_getLsbD_eq fun b hb => by
    rw [getLsbD_mask_sampleLoop P x idx hn hb, hno]
    exact BitVec.getLsbD_zero.symm
  have hevents : (sampleLoop P x idx s).events = [] := by
    rw [events_sampleLoop P x idx hn, List.filter_eq_nil_iff.2 fun b _ => by rw [hno]; decide, List.map_nil]
  rw [out_processSample P x idx hn, hmask, hevents]
  rfl

/-- Settles O32: every configured band is silent, before and after. -/
theorem allZeroStreamNeverPeaks : Obligations.AllZeroStreamNeverPeaks := by
  intro idx s hlegal hm hL hsilent
  have hP := (Params.legal_iff _).1 hlegal
  have hd := sampleDefined_of_configLegal hL
  have hno : ∀ b, peaksOn s.params 0 idx s b = false := fun b => by
    rw [peaksOn, Bool.and_eq_false_imp, decide_eq_true_iff]
    exact fun hb => bandPipeline_zero_peak _ _ _ (hsilent b hb) idx
  obtain ⟨_, _, _, hframe⟩ := processSample_frame s.params 0 idx s
  have hparams : (processSample s.params 0 idx s).params = s.params := by rw [hframe]
  refine ⟨processSample s.params 0 idx s, exec_sample_run hm hd 0 idx,
    out_processSample_of_no_peak (nbands_le_slots hP hd) hno, (processSample_mode ..).trans hm,
    processSample_nbands .., hparams, hparams.symm ▸ configLegal_processSample hP hL 0 idx, fun b hb => ?_⟩
  rw [processSample_nbands] at hb
  rw [band_processSample hP hd, if_pos hb]
  exact silent_bandPipeline_zero _ _ _ (hsilent b hb) idx

end Sys2Proof.Machine

/-! ## Proofs: SAMPLE in CONFIG (R104, R123) -/

namespace Sys2Proof.Machine

/-- SAMPLE in CONFIG is refused (R104). -/
theorem exec_sample_config {s : State} (hm : s.mode = .config) (x : SampleWord) (idx : Index) :
    exec (.sample x idx) s = .next (nak s.params .badState s) := by
  change sampleWith s.params x idx s = _
  simp [sampleWith, hm]

/-- Settles O28: the refusal sends `nak(BAD_STATE)` and writes nothing else. -/
theorem sampleIsRefusedInConfig : Obligations.SampleIsRefusedInConfig := by
  intro x idx s hm
  rw [exec_sample_config hm, nak, respond, responseWords_nak_badState]

end Sys2Proof.Machine

/-! ## Proofs: the architectural state evolves on its own (R15, R51) -/

namespace Sys2Proof.Machine

/-- A response is not part of the architectural state. -/
@[simp] theorem arch_respond (P : Params) (r : Response) (s : State) : (respond P r s).arch = s.arch := rfl

@[simp] theorem arch_nak (P : Params) (c : NakCode) (s : State) : (nak P c s).arch = s.arch := rfl

@[simp] theorem arch_mode (s : State) : s.arch.mode = s.mode := rfl

@[simp] theorem arch_arch (s : State) : s.arch.arch = s.arch := rfl

/-- A write to a named word computes on the architectural state (R46). -/
theorem cfgWrite_arch (P : Params) (s : State) (r : ConfigReg) (v : Word) :
    cfgWrite P s.arch r v = (cfgWrite P s r v).arch := by
  cases r <;> rfl

/-- CFGR leaves the architectural state alone (R46, R116). -/
@[simp] theorem arch_cfgrWith (P : Params) (addr : CfgAddr) (s : State) : (cfgrWith P addr s).arch = s.arch := by
  rcases cfgrWith_cases P addr s with ⟨-, h⟩ | ⟨r, -, h⟩ <;> rw [h] <;> rfl

/-- INIT's checks read the architectural state only (R118). -/
theorem validate_arch (P : Params) (s : State) : validate P s.arch = validate P s := rfl

/-- Construction computes on the architectural state (R119). -/
theorem construct_arch (P : Params) (s : State) : construct P s.arch = (construct P s).arch := rfl

/-- The cause a failed check leaves in `CFGERR` does not depend on the rest (R128). -/
theorem arch_cfgError_arch (P : Params) (e : ConfigError) (s : State) :
    (cfgError P e s.arch).arch = (cfgError P e s).arch := rfl

/-- The domain of SAMPLE's rules is one of the architectural state (log 11). -/
theorem sampleDefined_arch (P : Params) (s : State) : sampleDefined P s.arch = sampleDefined P s := rfl

/-- The running values of SAMPLE's loop with only the architectural state kept. -/
def BankAcc.arch (acc : BankAcc) : BankAcc := { acc with st := acc.st.arch }

/-- A turn of SAMPLE's loop computes on the architectural state (R104). -/
theorem sampleBand_arch (P : Params) (x : SampleWord) (idx : Index) (acc : BankAcc) (b : Nat) :
    sampleBand P x idx acc.arch b = (sampleBand P x idx acc b).arch := by
  unfold sampleBand
  dsimp only
  rw [apply_ite BankAcc.arch]
  rfl

/-- So does the whole loop, turn by turn. -/
theorem sampleLoop_arch (P : Params) (x : SampleWord) (idx : Index) (s : State) :
    sampleLoop P x idx s.arch = (sampleLoop P x idx s).arch :=
  List.foldl_hom BankAcc.arch (init := ⟨s, 0, []⟩) (sampleBand_arch P x idx)

/-- So does SAMPLE in RUN; its PEAKS response is no part of that state. -/
theorem arch_processSample_arch (P : Params) (x : SampleWord) (idx : Index) (s : State) :
    (processSample P x idx s.arch).arch = (processSample P x idx s).arch := by
  simp only [processSample, arch_respond, sampleLoop_arch]
  rfl

/-- An outcome with only the architectural part of its next state kept: what a run does but for what it
sends. -/
def archOutcome : Host.Outcome State Fault Refusal → Host.Outcome State Fault Refusal
  | .next t => .next t.arch
  | .fault r => .fault r
  | .refused r => .refused r

@[simp] theorem archOutcome_next (t : State) : archOutcome (.next t) = .next t.arch := rfl

@[simp] theorem archOutcome_fault (r : Fault) : archOutcome (.fault r) = .fault r := rfl

@[simp] theorem archOutcome_refused (r : Refusal) : archOutcome (.refused r) = .refused r := rfl

/-- An outcome has the architectural part of a next state exactly when it is a next state with that part. -/
theorem archOutcome_eq_next_iff {o : Host.Outcome State Fault Refusal} {u : State} :
    archOutcome o = .next u ↔ ∃ t, o = .next t ∧ t.arch = u := by
  cases o <;> simp

/-- Every command computes on the architectural state: what the host still does and has received is not read
(R51, R110). -/
theorem archOutcome_exec_arch (i : Instr) (s : State) : archOutcome (exec i s.arch) = archOutcome (exec i s) := by
  cases i with
  | nop a d => rfl
  | cfgw addr data =>
    change archOutcome (.next (cfgwWith s.params addr data s.arch)) = .next (cfgwWith s.params addr data s).arch
    cases hm : s.mode with
    | run => simp [cfgwWith, hm]
    | config => cases hr : writableReg s.params addr <;> simp [cfgwWith, hm, hr, cfgWrite_arch]
  | cfgr addr d =>
    change archOutcome (.next (cfgrWith s.params addr s.arch)) = .next (cfgrWith s.params addr s).arch
    simp
  | init a d =>
    change archOutcome (.next (initWith s.params s.arch)) = .next (initWith s.params s).arch
    cases hm : s.mode with
    | run => simp [initWith, hm]
    | config =>
      cases hv : validate s.params s with
      | none => simp [initWith, hm, validate_arch, hv, construct_arch]
      | some e => simp [initWith, hm, validate_arch, hv, arch_cfgError_arch]
  | sample x idx =>
    change archOutcome (sampleWith s.params x idx s.arch) = archOutcome (sampleWith s.params x idx s)
    cases hm : s.mode with
    | config => simp [sampleWith, hm]
    | run =>
      cases hd : sampleDefined s.params s <;>
        simp [sampleWith, hm, sampleDefined_arch, hd, arch_processSample_arch]
  | stop a d =>
    change archOutcome (.next (stopWith s.params s.arch)) = .next (stopWith s.params s).arch
    cases hm : s.mode with
    | config => simp [stopWith, hm]
    | run => simp only [stopWith, arch_mode, hm]; rfl

/-- So does the command port, whatever the word (R60, R121). -/
theorem archOutcome_acceptWord_arch (w : CmdWord) (s : State) :
    archOutcome (acceptWord w s.arch) = archOutcome (acceptWord w s) := by
  cases hd : decode w with
  | command i => rw [acceptWord_command hd, acceptWord_command hd, archOutcome_exec_arch]
  | illegal why => rw [acceptWord_illegal hd, acceptWord_illegal hd]; rfl

/-- A run whose first word leads to a next state goes on from it (R51). -/
theorem runWords_cons_of_next {w : CmdWord} {s t : State} (h : acceptWord w s = .next t) (ws : List CmdWord) :
    runWords (w :: ws) s = runWords ws t := by
  rw [runWords, h]

/-- Two runs with the same first word agree if its outcomes do, and then the rests of the runs. -/
theorem archOutcome_runWords_cons {w : CmdWord} {s s' : State} {ws ws' : List CmdWord}
    (hfirst : archOutcome (acceptWord w s) = archOutcome (acceptWord w s'))
    (hrest : ∀ t t', t.arch = t'.arch → archOutcome (runWords ws t) = archOutcome (runWords ws' t')) :
    archOutcome (runWords (w :: ws) s) = archOutcome (runWords (w :: ws') s') := by
  unfold runWords
  generalize acceptWord w s = o, acceptWord w s' = o' at hfirst ⊢
  cases o <;> cases o'
  case next.next t t' => exact hrest t t' (Host.Outcome.next.inj hfirst)
  case fault.fault | refused.refused => exact hfirst
  all_goals cases hfirst

/-- Runs from states with the same architectural part agree in theirs. -/
theorem archOutcome_runWords_congr (ws : List CmdWord) {s s' : State} (h : s.arch = s'.arch) :
    archOutcome (runWords ws s) = archOutcome (runWords ws s') := by
  induction ws generalizing s s' with
  | nil => simp [runWords, h]
  | cons w ws ih =>
    refine archOutcome_runWords_cons ?_ fun t t' => ih
    rw [← archOutcome_acceptWord_arch, h, archOutcome_acceptWord_arch]

end Sys2Proof.Machine

/-! ## Proofs: words that only observe (R112, R114, R116, R121) -/

namespace Sys2Proof.Machine

/-- A word that only observes completes in every state and leaves the architectural state alone (R112). -/
theorem acceptWord_of_onlyObserves {w : CmdWord} (h : onlyObserves w = true) (s : State) :
    ∃ t, acceptWord w s = .next t ∧ t.arch = s.arch := by
  unfold onlyObserves at h
  cases hd : decode w with
  | illegal why => exact ⟨_, acceptWord_illegal hd s, rfl⟩
  | command i =>
    rw [hd] at h
    cases i with
    | nop a d => exact ⟨_, acceptWord_command hd s, rfl⟩
    | cfgr addr d => exact ⟨_, acceptWord_command hd s, arch_cfgrWith s.params addr s⟩
    | cfgw | init | sample | stop => cases h

/-- Dropping the words that only observe changes neither the architectural state a run leads to nor whether it
stops (R112). -/
theorem archOutcome_runWords_filter (ws : List CmdWord) (s : State) :
    archOutcome (runWords (ws.filter fun w => !onlyObserves w) s) = archOutcome (runWords ws s) := by
  induction ws generalizing s with
  | nil => rfl
  | cons w ws ih =>
    cases hw : onlyObserves w with
    | true =>
      obtain ⟨t, ht, harch⟩ := acceptWord_of_onlyObserves hw s
      rw [List.filter_cons_of_neg (by simp [hw]), runWords_cons_of_next ht, ih]
      exact archOutcome_runWords_congr ws harch.symm
    | false =>
      rw [List.filter_cons_of_pos (by simp [hw])]
      exact archOutcome_runWords_cons rfl fun t t' h => (ih t).trans (archOutcome_runWords_congr ws h)

/-- Settles O57. -/
theorem observingDoesNotDisturb : Obligations.ObservingDoesNotDisturb := by
  intro ws s t h
  rw [← archOutcome_eq_next_iff, archOutcome_runWords_filter, h, archOutcome_next]

end Sys2Proof.Machine

/-! ## Proofs: which words are commands (R59, R60, R121) -/

namespace Sys2Proof

/-- The opcodes of the six commands are `0x0` to `0x5` (R59). -/
theorem exists_opcode_eq_iff (op : BitVec 4) : (∃ j : Instr, j.opcode = op) ↔ op.toNat < 6 := by
  constructor
  · rintro ⟨j, rfl⟩
    cases j <;> simp [Instr.opcode]
  · intro hop
    have hsix : ∀ op : BitVec 4, op.toNat < 6 →
        op = 0 ∨ op = 1 ∨ op = 2 ∨ op = 3 ∨ op = 4 ∨ op = 5 := by decide
    rcases hsix op hop with rfl | rfl | rfl | rfl | rfl | rfl
    · exact ⟨.nop 0 0, rfl⟩
    · exact ⟨.cfgw 0 0, rfl⟩
    · exact ⟨.cfgr 0 0, rfl⟩
    · exact ⟨.init 0 0, rfl⟩
    · exact ⟨.sample 0 0, rfl⟩
    · exact ⟨.stop 0 0, rfl⟩

/-- A word is a command exactly when its opcode is one of the six and its reserved field is 0 (R60). -/
theorem exists_decode_eq_command_iff (w : CmdWord) :
    (∃ i, decode w = .command i) ↔ (fieldOP w).toNat < 6 ∧ fieldRSV w = 0 := by
  rw [← exists_opcode_eq_iff]
  constructor
  · rintro ⟨i, hi⟩
    obtain ⟨hop, hrsv⟩ := (exists_decode_opcode_iff w i).1 ⟨i, hi, rfl⟩
    exact ⟨⟨i, hop.symm⟩, hrsv⟩
  · rintro ⟨⟨j, hj⟩, hrsv⟩
    obtain ⟨i, hi, -⟩ := (exists_decode_opcode_iff w j).2 ⟨hj.symm, hrsv⟩
    exact ⟨i, hi⟩

/-- A word that is no command is illegal (R60). -/
theorem exists_decode_eq_illegal_iff (w : CmdWord) :
    (∃ why, decode w = .illegal why) ↔ ¬∃ i, decode w = .command i := by
  cases decode w <;> simp

end Sys2Proof

namespace Sys2Proof.Machine

/-- Settles O3: by `exists_decode_eq_command_iff`, and the answer of the command port to either kind of word. -/
theorem illegalWordsAreRejected : Obligations.IllegalWordsAreRejected := by
  intro w s
  have hcommand : ¬(6 ≤ (fieldOP w).toNat ∨ fieldRSV w ≠ 0) ↔ ∃ i, decode w = .command i := by
    rw [exists_decode_eq_command_iff, not_or, not_le, not_not]
  constructor
  · intro h
    obtain ⟨why, hwhy⟩ := (exists_decode_eq_illegal_iff w).2 fun hi => hcommand.2 hi h
    exact ⟨⟨why, hwhy⟩, by rw [acceptWord_illegal hwhy, rejectIllegal_eq]⟩
  · intro h
    obtain ⟨i, hi⟩ := hcommand.1 h
    exact ⟨i, hi, acceptWord_command hi s⟩

end Sys2Proof.Machine

/-! ## Proofs: the control commands, case by case (R114 to R117, R120, R123, R128) -/

namespace Sys2Proof.Machine

/-! ### Responses of one word, and of data -/

/-- `nak(BAD_STATE)` sends its word and changes nothing else (R64, R123). -/
theorem nak_badState_eq (P : Params) (s : State) :
    nak P .badState s = { s with out := s.out ++ [⟨0xF0000002, true⟩] } := rfl

/-- `nak(BAD_ADDR)` sends its word and changes nothing else (R64, R123). -/
theorem nak_badAddr_eq (P : Params) (s : State) :
    nak P .badAddr s = { s with out := s.out ++ [⟨0xF0000003, true⟩] } := rfl

/-- A configuration error records itself in `CFGERR`, sends `nak(CFG_INVALID)` and changes nothing else
(R118, R128). -/
theorem cfgError_eq (P : Params) (e : ConfigError) (s : State) :
    cfgError P e s = { s with cfgerr := e.band ++ e.cause.code, out := s.out ++ [⟨0xF0000004, true⟩] } := rfl

/-- `ack` sends its word and changes nothing else (R61). -/
theorem respond_ack_eq (P : Params) (s : State) :
    respond P .ack s = { s with out := s.out ++ [⟨0x00000000, true⟩] } := rfl

/-- A data response sends its header and its word and changes nothing else (R61). -/
theorem respond_data_eq (P : Params) (v : Word) (s : State) :
    respond P (.data v) s = { s with out := s.out ++ [⟨0x10000000, false⟩, ⟨v, true⟩] } := rfl

/-! ### NOP -/

/-- Settles O33: the word is the encoding of NOP, which answers ACK. -/
theorem nopOnlyAcknowledges : Obligations.NopOnlyAcknowledges := fun a d s =>
  ⟨decodeInvertsEncode (.nop a d) rfl, congrArg Host.Outcome.next (respond_ack_eq s.params s)⟩

/-! ### CFGW -/

/-- No word may be written at an address that is unmapped or names a read-only word (R47, R48). -/
theorem writableReg_eq_none {P : Params} {addr : CfgAddr} :
    writableReg P addr = none ↔ ∀ r, configReg P addr = some r → r.writable = false := by
  simp [writableReg, Option.filter_eq_none_iff]

/-- CFGW in RUN is refused, whatever the address (R115). -/
theorem exec_cfgw_of_run {s : State} (hm : s.mode = .run) (addr : CfgAddr) (data : Word) :
    exec (.cfgw addr data) s = .next (nak s.params .badState s) := by
  change Host.Outcome.next (cfgwWith s.params addr data s) = _
  rw [cfgwWith, hm]

/-- CFGW in CONFIG to an address that may not be written is refused (R115). -/
theorem exec_cfgw_of_not_writable {s : State} (hm : s.mode = .config) {addr : CfgAddr}
    (hr : writableReg s.params addr = none) (data : Word) :
    exec (.cfgw addr data) s = .next (nak s.params .badAddr s) := by
  change Host.Outcome.next (cfgwWith s.params addr data s) = _
  rw [cfgwWith, hm, hr]

/-- CFGW in CONFIG to a writable word writes it (R115). -/
theorem exec_cfgw_of_writable {s : State} (hm : s.mode = .config) {addr : CfgAddr} {r : ConfigReg}
    (hr : writableReg s.params addr = some r) (data : Word) :
    exec (.cfgw addr data) s = .next (respond s.params .ack (cfgWrite s.params s r data)) := by
  change Host.Outcome.next (cfgwWith s.params addr data s) = _
  rw [cfgwWith, hm, hr]

/-- Settles O34, a case of CFGW a clause. -/
theorem cfgwWritesOrRefuses : Obligations.CfgwWritesOrRefuses := by
  intro addr data s
  refine ⟨decodeInvertsEncode (.cfgw addr data) rfl, fun hm => ?_, fun hm hr => ?_, fun r hm hr hw => ?_⟩
  · rw [exec_cfgw_of_run hm, nak_badState_eq]
  · rw [exec_cfgw_of_not_writable hm (writableReg_eq_none.2 hr), nak_badAddr_eq]
  · rw [exec_cfgw_of_writable hm (writableReg_eq_some.2 ⟨hr, hw⟩), respond_ack_eq, cfgWrite_out]

/-! ### CFGR -/

/-- CFGR of an unmapped address is refused (R116). -/
theorem exec_cfgr_of_unmapped {s : State} {addr : CfgAddr} (hr : configReg s.params addr = none) (d : Word) :
    exec (.cfgr addr d) s = .next (nak s.params .badAddr s) := by
  change Host.Outcome.next (cfgrWith s.params addr s) = _
  rw [cfgrWith, hr]

/-- CFGR of a mapped address answers the word it names (R116). -/
theorem exec_cfgr_of_mapped {s : State} {addr : CfgAddr} {r : ConfigReg} (hr : configReg s.params addr = some r)
    (d : Word) : exec (.cfgr addr d) s = .next (respond s.params (.data (cfgRead s.params s r)) s) := by
  change Host.Outcome.next (cfgrWith s.params addr s) = _
  rw [cfgrWith, hr]

/-- Settles O35, a case of CFGR a clause. -/
theorem cfgrReadsOrRefuses : Obligations.CfgrReadsOrRefuses := by
  intro addr d s
  refine ⟨decodeInvertsEncode (.cfgr addr d) rfl, fun hr => ?_, fun r hr => ?_⟩
  · rw [exec_cfgr_of_unmapped hr, nak_badAddr_eq]
  · rw [exec_cfgr_of_mapped hr, respond_data_eq]

/-! ### INIT -/

/-- INIT in RUN is refused (R117). -/
theorem exec_init_of_run {s : State} (hm : s.mode = .run) (a : BitVec 16) (d : Word) :
    exec (.init a d) s = .next (nak s.params .badState s) := by
  change Host.Outcome.next (initWith s.params s) = _
  rw [initWith, hm]

/-- INIT in CONFIG with a failing check ends with that configuration error (R117). -/
theorem exec_init_of_failed {s : State} {e : ConfigError} (hm : s.mode = .config)
    (hv : validate s.params s = some e) (a : BitVec 16) (d : Word) :
    exec (.init a d) s = .next (cfgError s.params e s) :=
  congrArg Host.Outcome.next (initWith_of_validate_some hm hv)

/-- INIT in CONFIG on a legal configuration constructs every slot and enters RUN (R117, R119). -/
theorem exec_init_of_legal {s : State} (hm : s.mode = .config) (hv : validate s.params s = none)
    (a : BitVec 16) (d : Word) :
    exec (.init a d) s = .next (respond s.params .ack (construct s.params s)) := by
  change Host.Outcome.next (initWith s.params s) = _
  simp only [initWith, hm, hv]

/-- Settles O36, a case of INIT a clause. -/
theorem initConstructsOrRefuses : Obligations.InitConstructsOrRefuses := by
  intro a d s
  refine ⟨decodeInvertsEncode (.init a d) rfl, fun hm => ?_, fun e hm hv => ?_, fun hm hv => ?_⟩
  · rw [exec_init_of_run hm, nak_badState_eq]
  · rw [exec_init_of_failed hm hv, cfgError_eq]
  · rw [exec_init_of_legal hm hv, respond_ack_eq]
    rfl

/-! ### STOP -/

/-- STOP in CONFIG is refused (R120). -/
theorem exec_stop_of_config {s : State} (hm : s.mode = .config) (a : BitVec 16) (d : Word) :
    exec (.stop a d) s = .next (nak s.params .badState s) := by
  change Host.Outcome.next (stopWith s.params s) = _
  rw [stopWith, hm]

/-- STOP in RUN writes the mode (R120). -/
theorem exec_stop_of_run {s : State} (hm : s.mode = .run) (a : BitVec 16) (d : Word) :
    exec (.stop a d) s = .next (respond s.params .ack { s with mode := .config }) := by
  change Host.Outcome.next (stopWith s.params s) = _
  rw [stopWith, hm]

/-- Settles O37, a case of STOP a clause. -/
theorem stopLeavesRunOrRefuses : Obligations.StopLeavesRunOrRefuses := by
  intro a d s
  refine ⟨decodeInvertsEncode (.stop a d) rfl, fun hm => ?_, fun hm => ?_⟩
  · rw [exec_stop_of_run hm, respond_ack_eq]
  · rw [exec_stop_of_config hm, nak_badState_eq]

end Sys2Proof.Machine

/-! ## Proofs: the order of INIT's checks (R118, R126) -/

namespace Sys2Proof.Machine

/-- The error of the first check of a list that fails. -/
def firstFailure (checks : List (Bool × ConfigError)) : Option ConfigError :=
  (checks.find? fun c => c.1).map fun c => c.2

theorem firstFailure_nil : firstFailure [] = none := rfl

theorem firstFailure_cons (p : Prop) [Decidable p] (e : ConfigError) (checks : List (Bool × ConfigError)) :
    firstFailure ((decide p, e) :: checks) = if p then some e else firstFailure checks := by
  by_cases hp : p <;> simp [firstFailure, hp]

theorem firstFailure_flatMap (bs : List Nat) (f : Nat → List (Bool × ConfigError)) :
    firstFailure (bs.flatMap f) = bs.findSome? fun b => firstFailure (f b) := by
  rw [firstFailure, List.find?_flatMap, List.map_findSome?]
  rfl

/-- The checks on one band report the first that fails, with the band's number (R118). -/
theorem firstFailure_bandChecks (P : Params) (s : State) (b : Nat) :
    firstFailure (bandChecks P s b) =
      (validateBand P (s.band b)).map fun cause => ⟨cause, BitVec.ofNat 8 b⟩ := by
  simp only [bandChecks, firstFailure_cons, firstFailure_nil, validateBand, apply_ite (Option.map _),
    Option.map_some, Option.map_none]

/-- Settles O39: the two checks of the global registers, then those of the bands by `firstFailure_bandChecks`. -/
theorem validateReportsTheFirstFailure : Obligations.ValidateReportsTheFirstFailure := by
  intro P s
  change validate P s = firstFailure (configChecks P s)
  simp only [configChecks, List.cons_append, List.nil_append, firstFailure_cons, firstFailure_flatMap,
    firstFailure_bandChecks, validate]

end Sys2Proof.Machine

/-! ## Proofs: bring-up of one band (R115, R117, R119, R145) -/

namespace Sys2Proof.Machine

/-! ### A sequence of writes to the configuration space -/

/-- The CFGW that writes a value to a named word. -/
def cfgwOf (w : ConfigReg × Word) : Instr := .cfgw (BitVec.ofNat 16 w.1.addr) w.2

/-- An acknowledged write. Tied to the model by `exec_cfgwOf`. -/
def ackedWrite (P : Params) (s : State) (w : ConfigReg × Word) : State := respond P .ack (cfgWrite P s w.1 w.2)

/-- The word exists under this parameter record and is one that CFGW may write (R42, R47, R48). -/
def CanWrite (P : Params) (r : ConfigReg) : Prop := r.present P = true ∧ r.writable = true

/-- In CONFIG a CFGW to a word that may be written is acknowledged (R115). -/
theorem exec_cfgwOf {P : Params} (hP : P.IsLegal) {s : State} (hs : s.params = P) (hm : s.mode = .config)
    {w : ConfigReg × Word} (hw : CanWrite P w.1) : exec (cfgwOf w) s = .next (ackedWrite P s w) := by
  subst hs
  obtain ⟨hpresent, hwritable⟩ := hw
  exact exec_cfgw_of_writable hm (writableReg_eq_some.2 ⟨configReg_ofNat_addr hP hpresent, hwritable⟩) w.2

/-- A command that completes hands its state to the rest of the sequence. -/
theorem runInstrs_cons_of_next {i : Instr} {s t : State} (h : exec i s = .next t) (is : List Instr) :
    runInstrs (i :: is) s = runInstrs is t := by
  simp only [runInstrs, h]

/-- In CONFIG a sequence of writes to words that may be written runs to its end (R115). -/
theorem runInstrs_cfgwOf_append {P : Params} (hP : P.IsLegal) (is : List Instr) {ws : List (ConfigReg × Word)}
    (hws : ∀ w ∈ ws, CanWrite P w.1) {s : State} (hs : s.params = P) (hm : s.mode = .config) :
    runInstrs (ws.map cfgwOf ++ is) s = runInstrs is (ws.foldl (ackedWrite P) s) := by
  induction ws generalizing s with
  | nil => rfl
  | cons w ws ih =>
    obtain ⟨hw, hws⟩ := List.forall_mem_cons.1 hws
    rw [List.map_cons, List.cons_append, runInstrs_cons_of_next (exec_cfgwOf hP hs hm hw)]
    exact ih hws ((cfgWrite_params ..).trans hs) ((cfgWrite_mode ..).trans hm)

/-- Beside the two global registers and the band slots, a sequence of writes leaves one ACK each (R46, R115). -/
theorem foldl_ackedWrite_frame (P : Params) (ws : List (ConfigReg × Word)) (s : State) :
    ∃ fs nbands bands, ws.foldl (ackedWrite P) s =
      { s with
        fs := fs, nbands := nbands, bands := bands
        out := s.out ++ List.replicate ws.length ⟨0x00000000, true⟩ } := by
  induction ws generalizing s with
  | nil => exact ⟨s.fs, s.nbands, s.bands, by simp⟩
  | cons w ws ih =>
    obtain ⟨fs, nbands, bands, hws⟩ := ih (ackedWrite P s w)
    obtain ⟨_, _, _, hw⟩ := cfgWrite_frame P s w.1 w.2
    refine ⟨fs, nbands, bands, ?_⟩
    rw [List.foldl_cons, hws, ackedWrite, hw, respond_ack_eq]
    simp [List.replicate_succ]

/-- A slot after a sequence of writes (R46, R49). -/
theorem band_foldl_ackedWrite (P : Params) (ws : List (ConfigReg × Word)) (s : State) {c : Nat}
    (hc : c < Config.slots) :
    (ws.foldl (ackedWrite P) s).band c = ws.foldl (fun B w => bandWrite P w.1 w.2 c B) (s.band c) := by
  induction ws generalizing s with
  | nil => rfl
  | cons w ws ih => rw [List.foldl_cons, ih, List.foldl_cons, ackedWrite, band_respond, band_cfgWrite _ _ _ _ hc]

/-! ### The writes of bring-up -/

section
variable (fs ntaps wlen minDist sens floor : Word)

/-- The writes of bring-up for one band, as named words. Tied to the model by `bringUpOneBand_eq`. -/
def bringUpWrites : List (ConfigReg × Word) :=
  [(.fs, fs), (.nbands, 1), (.ntaps 0, ntaps), (.wlen 0, wlen), (.minDist 0, minDist), (.sens 0, sens),
    (.floor 0, floor)]

/-- The state after the writes of bring-up. -/
def afterBringUpWrites (s : State) : State :=
  (bringUpWrites fs ntaps wlen minDist sens floor).foldl (ackedWrite s.params) s

theorem bringUpOneBand_eq :
    bringUpOneBand fs ntaps wlen minDist sens floor =
      (bringUpWrites fs ntaps wlen minDist sens floor).map cfgwOf ++ [.init 0 0] := rfl

/-- Every legal record has the words that bring-up of one band writes (R42). -/
theorem canWrite_bringUpWrites {P : Params} (hP : P.IsLegal) :
    ∀ w ∈ bringUpWrites fs ntaps wlen minDist sens floor, CanWrite P w.1 := by
  have hband : 0 < P.nbMax := hP.nbMax_pos
  simp [bringUpWrites, CanWrite, ConfigReg.present, ConfigReg.writable, hband]

/-- What the writes of bring-up leave of the state outside the two global registers and the band slots. -/
theorem afterBringUpWrites_frame (s : State) :
    ∃ bands, afterBringUpWrites fs ntaps wlen minDist sens floor s =
      { s with
        fs := fs, nbands := 1, bands := bands
        out := s.out ++ List.replicate 7 ⟨0x00000000, true⟩ } := by
  obtain ⟨fs', nbands', bands, h⟩ :=
    foldl_ackedWrite_frame s.params (bringUpWrites fs ntaps wlen minDist sens floor) s
  have hfs : fs = fs' := congrArg State.fs h
  have hnbands : 1 = nbands' := congrArg State.nbands h
  subst hfs hnbands
  exact ⟨bands, h⟩

/-- The five registers of band 0 after the writes of bring-up. -/
theorem band_zero_afterBringUpWrites (s : State) :
    (afterBringUpWrites fs ntaps wlen minDist sens floor s).band 0 =
      { s.band 0 with ntaps := ntaps, wlen := wlen, sens := sens, floor := floor, minDist := minDist } := by
  rw [afterBringUpWrites, band_foldl_ackedWrite _ _ _ (by decide)]
  simp [bringUpWrites, bandWrite]

/-- Bring-up of one band writes no coefficient word of any band. -/
theorem coef_afterBringUpWrites (s : State) {c : Nat} (hc : c < Config.slots) :
    ((afterBringUpWrites fs ntaps wlen minDist sens floor s).band c).coef = (s.band c).coef := by
  rw [afterBringUpWrites, band_foldl_ackedWrite _ _ _ hc]
  rfl

end

/-- Settles O59: INIT accepts what the writes leave behind, and constructs every slot. -/
theorem bringUpReachesRun : Obligations.BringUpReachesRun := by
  intro s fs ntaps wlen minDist sens floor hlegal hm hfs1 hfs hT1 hT hw1 hw hsens hfloor
  have hP := (Params.legal_iff _).1 hlegal
  have hrun := runInstrs_cfgwOf_append hP [.init 0 0]
    (canWrite_bringUpWrites fs ntaps wlen minDist sens floor hP) rfl hm
  have hband := band_zero_afterBringUpWrites fs ntaps wlen minDist sens floor s
  have hcoef := fun b => coef_afterBringUpWrites fs ntaps wlen minDist sens floor s (c := b)
  obtain ⟨bands, hu⟩ := afterBringUpWrites_frame fs ntaps wlen minDist sens floor s
  rw [← bringUpOneBand_eq, ← afterBringUpWrites] at hrun
  generalize afterBringUpWrites fs ntaps wlen minDist sens floor s = u at hrun hband hcoef hu
  have hmode : u.mode = .config := by rw [hu, hm]
  have hparams : u.params = s.params := by rw [hu]
  have hconfig : ConfigLegal u.params u := by
    rw [hparams, ConfigLegal, show u.fs = fs by rw [hu], show u.nbands = 1 by rw [hu]]
    refine ⟨hfs1, hfs, le_rfl, hP.nbMax_pos, fun b hb => ?_⟩
    obtain rfl : b = 0 := Nat.lt_one_iff.1 hb
    rw [hband]
    exact ⟨hT1, hT, hw1, hw, hsens, hfloor⟩
  have hinit := exec_init_of_legal hmode ((validate_eq_none_iff _ _).2 hconfig) 0 0
  rw [hparams] at hinit
  refine ⟨respond s.params .ack (construct s.params u), hrun.trans (runInstrs_cons_of_next hinit []), hparams, rfl,
    ?_, ?_, rfl, rfl, ?_, ?_, fun b k hb => ?_⟩
  · rw [respond_fs, construct_fs, hu]
  · rw [respond_nbands, construct_nbands, hu]
  · rw [respond_ack_eq, construct_out, hu, List.append_assoc]
    rfl
  · rw [band_respond, band_construct _ _ (by decide), hband]
    simp [constructBand, Params.cntMax, hP.cntW_eq]
  · have hpowerOn : u.powerOn = s.powerOn := by rw [hu]
    rw [band_respond, band_construct _ _ hb, constructBand_coef, hcoef b hb, respond_params, construct_params,
      hparams, respond_powerOn, construct_powerOn, hpowerOn]

end Sys2Proof.Machine

/-! ## Proofs: nothing stops the block (R130, R139, R152) -/

namespace Sys2Proof.Machine

/-- Under the invariant every command completes: SAMPLE is refused in CONFIG, and the configuration that RUN
guarantees puts it in the domain of its rules (R118; log 11). -/
theorem exists_exec_eq_next {s : State} (hs : StateInv s) (i : Instr) : ∃ t, exec i s = .next t := by
  cases i with
  | nop | cfgw | cfgr | init | stop => exact ⟨_, rfl⟩
  | sample x idx =>
    cases hm : s.mode with
    | config => exact ⟨_, exec_sample_config hm x idx⟩
    | run =>
      obtain ⟨-, -, -, hrun⟩ := hs
      obtain ⟨hconfig, -, -⟩ := hrun hm
      exact ⟨_, exec_sample_run hm (sampleDefined_of_configLegal hconfig) x idx⟩

/-- Under the invariant every command word is answered, a command or not (R60, R130). -/
theorem exists_acceptWord_eq_next {s : State} (hs : StateInv s) (w : CmdWord) :
    ∃ t, acceptWord w s = .next t := by
  cases hd : decode w with
  | command i =>
    rw [acceptWord_command hd]
    exact exists_exec_eq_next hs i
  | illegal why => exact ⟨_, acceptWord_illegal hd s⟩

/-- A command cut short completes if the whole command does (R144). -/
theorem acceptWordCut_of_next {w : CmdWord} {s u : State} (h : acceptWord w s = .next u) (taken : Nat) :
    acceptWordCut w taken s = .next (cutByReset s.params s u taken) := by
  rw [acceptWordCut, h]

/-- Settles O51, by the kind of the host's next event; only a command word needs the invariant. -/
theorem stepAlwaysCompletes : Obligations.StepAlwaysCompletes := by
  intro s hs
  match hhost : s.host with
  | [] => exact ⟨_, step_of_host_nil hhost⟩
  | .command w :: rest =>
    rw [step_of_host_command hhost]
    exact exists_acceptWord_eq_next (s := { s with host := rest }) hs w
  | .reset :: rest => exact ⟨_, step_of_host_reset hhost⟩
  | .commandCutByReset w taken :: rest =>
    obtain ⟨u, hu⟩ := exists_acceptWord_eq_next (s := { s with host := rest }) hs w
    exact ⟨_, (step_of_host_cut hhost).trans (acceptWordCut_of_next hu taken)⟩

end Sys2Proof.Machine

/-! ## Proofs: a command answered with a NAK (R61, R64, R123, R128) -/

namespace Sys2Proof.Machine

/-- A header word determines its kind and its information field (R61). -/
theorem headerWord_inj {kind kind' : BitVec 4} {info info' : BitVec 8} :
    headerWord kind info = headerWord kind' info' ↔ kind = kind' ∧ info = info' := by
  constructor
  · intro h
    obtain ⟨hkind, hinfo⟩ := fields_headerWord kind info
    obtain ⟨hkind', hinfo'⟩ := fields_headerWord kind' info'
    exact ⟨by rw [← hkind, h, hkind'], by rw [← hinfo, h, hinfo']⟩
  · rintro ⟨rfl, rfl⟩
    rfl

/-- The codes of a NAK are told apart by the header (R64). -/
theorem nakCode_info_injective : Function.Injective NakCode.info := by
  intro c c' h
  cases c <;> cases c' <;> revert h <;> decide

/-- The words of a NAK are those of no other response: no other header has its kind (R61, R64). -/
theorem responseWords_eq_nak_iff (P : Params) (r : Response) (code : NakCode) :
    responseWords P r = responseWords P (.nak code) ↔ r = .nak code := by
  cases r <;> simp [responseWords, headerWord_inj, nakCode_info_injective.eq_iff]

/-- The words sent determine the marks on them. -/
theorem markLast_injective : Function.Injective markLast :=
  Function.LeftInverse.injective markLast_words

/-- A response whose words on the channel are those of a NAK is that NAK (R56, R61). -/
theorem eq_nak_of_out {P : Params} {r : Response} {code : NakCode} {out : List RspWord}
    (h : out ++ markLast (responseWords P r) = out ++ markLast (responseWords P (.nak code))) :
    r = .nak code :=
  (responseWords_eq_nak_iff P r code).1 (markLast_injective (List.append_cancel_left h))

/-- A command answered with a NAK only answered, or is an INIT of which a check failed (R123, R128). -/
theorem effect_of_nak {i : Instr} {s t : State} {code : NakCode} (hlegal : s.params.legal = true)
    (h : Effect s i t) (hout : t.out = s.out ++ markLast (responseWords s.params (.nak code))) :
    t = nak s.params code s
      ∨ code = .cfgInvalid ∧ (∃ a d, i = .init a d) ∧ ∃ e, t = cfgError s.params e s := by
  cases h with
  | answered i r =>
    obtain rfl := eq_nak_of_out hout
    exact .inl rfl
  | initFailed a d e =>
    cases eq_nak_of_out hout
    exact .inr ⟨rfl, ⟨a, d, rfl⟩, e, rfl⟩
  | wrote =>
    rw [respond_out, cfgWrite_out] at hout
    cases eq_nak_of_out hout
  | constructed | stopped => cases eq_nak_of_out hout
  | sampled x idx _ hd =>
    rw [out_processSample _ x idx (nbands_le_slots ((Params.legal_iff _).1 hlegal) hd)] at hout
    cases eq_nak_of_out hout

/-- Settles O55: an illegal word only answers, and of the commands answered with a NAK only a failed INIT
writes more than the response, `CFGERR`. -/
theorem rejectionChangesNothing : Obligations.RejectionChangesNothing := by
  intro w s t code hlegal h hout
  cases hd : decode w with
  | illegal why =>
    rw [acceptWord_illegal hd] at h
    cases h
    exact ⟨rfl, fun hne => absurd rfl hne⟩
  | command i =>
    rw [acceptWord_command hd] at h
    rcases effect_of_nak hlegal (effect_of_exec h) hout with rfl | ⟨hcode, ⟨a, d, rfl⟩, e, rfl⟩
    · exact ⟨rfl, fun hne => absurd rfl hne⟩
    · exact ⟨rfl, fun _ => ⟨hcode, a, d, rfl⟩⟩

end Sys2Proof.Machine

/-! ## Proofs: a reset event that cuts a command short (R141, R144, R150) -/

namespace Sys2Proof.Machine

/-- No effect of a command reaches the host's list or the power-on (log 3, log 6). -/
theorem Effect.host_powerOn {i : Instr} {s t : State} (h : Effect s i t) :
    t.host = s.host ∧ t.powerOn = s.powerOn := by
  cases h with
  | answered | initFailed | constructed | stopped => exact ⟨rfl, rfl⟩
  | wrote addr data r =>
    obtain ⟨_, _, _, h⟩ := cfgWrite_frame s.params s r data
    rw [h]
    exact ⟨rfl, rfl⟩
  | sampled x idx =>
    obtain ⟨_, _, _, h⟩ := processSample_frame s.params x idx s
    rw [h]
    exact ⟨rfl, rfl⟩

/-- An accepted word, a command or not, leaves the host's list and the power-on alone (log 3, log 6). -/
theorem acceptWord_host_powerOn {w : CmdWord} {s t : State} (h : acceptWord w s = .next t) :
    t.host = s.host ∧ t.powerOn = s.powerOn := by
  cases hd : decode w with
  | command i =>
    rw [acceptWord_command hd] at h
    exact (effect_of_exec h).host_powerOn
  | illegal why =>
    rw [acceptWord_illegal hd] at h
    cases h
    exact ⟨rfl, rfl⟩

/-- An accepted word, a command or not, adds words to the response channel and takes none back (R56, R60). -/
theorem exists_out_of_acceptWord {w : CmdWord} {s t : State} (hs : StateInv s)
    (h : acceptWord w s = .next t) : ∃ rsp, t.out = s.out ++ rsp := by
  obtain ⟨hlegal, -⟩ := hs
  cases hd : decode w with
  | command i =>
    rw [acceptWord_command hd] at h
    obtain ⟨r, hout, -⟩ := everyCommandGivesOneResponse i s t hlegal h
    exact ⟨_, hout⟩
  | illegal why =>
    rw [acceptWord_illegal hd] at h
    cases h
    exact ⟨_, rfl⟩

/-- Of the response of a command cut short, the words transferred before the reset have been sent (R144). -/
theorem out_cutByReset {s u : State} {rsp : List RspWord} (hout : u.out = s.out ++ rsp) (P : Params)
    (taken : Nat) : (cutByReset P s u taken).out = s.out ++ rsp.take taken := by
  change u.out.take (s.out.length + taken) = _
  rw [hout, List.take_length_add_append]

/-- A reset that cuts a command short leaves the host's list and the power-on alone, as the command did
(log 3, log 6). -/
theorem cutByReset_host_powerOn {s u : State} (h : u.host = s.host ∧ u.powerOn = s.powerOn) (P : Params)
    (taken : Nat) :
    (cutByReset P s u taken).host = s.host ∧ (cutByReset P s u taken).powerOn = s.powerOn := by
  obtain ⟨kept, hkept, out, freeCount, hcut⟩ := cutByReset_cases P s u taken
  rw [hcut]
  rcases hkept with rfl | rfl
  · exact ⟨rfl, rfl⟩
  · exact h

/-- A slot after a cut command has its reset values, and its coefficient memory is that of before or that of the
completed command (R141, R144; log 9). -/
theorem band_cutByReset_cases (P : Params) (s u : State) (taken : Nat) {b : Nat} (hb : b < Config.slots) :
    (cutByReset P s u taken).band b
        = { Band.reset P with coef := ((cutByReset P s u taken).band b).coef }
      ∧ (((cutByReset P s u taken).band b).coef = (s.band b).coef
        ∨ ((cutByReset P s u taken).band b).coef = (u.band b).coef) := by
  obtain ⟨kept, hkept, out, freeCount, hcut⟩ := cutByReset_cases P s u taken
  have hband : (cutByReset P s u taken).band b = resetBand P (kept.band b) := by
    rw [hcut]
    exact band_resetEvent P kept hb
  rw [hband]
  rcases hkept with rfl | rfl
  · exact ⟨rfl, .inl rfl⟩
  · exact ⟨rfl, .inr rfl⟩

/-- Once the whole response was transferred, the coefficient memory is that of the completed command (R150;
log 15). -/
theorem coef_cutByReset_of_completed {s u : State} {rsp : List RspWord} {taken : Nat}
    (hout : u.out = s.out ++ rsp) (htaken : rsp.length ≤ taken) (P : Params) {b : Nat}
    (hb : b < Config.slots) : ((cutByReset P s u taken).band b).coef = (u.band b).coef := by
  have hcompleted : u.out.length ≤ s.out.length + taken := by simpa [hout] using htaken
  have hband : (cutByReset P s u taken).band b = resetBand P (u.band b) := by
    simp only [cutByReset, hcompleted, decide_true, Bool.true_or, if_true]
    exact band_resetEvent P u hb
  rw [hband, resetBand_coef]

/-- Settles O48: the words sent and the model's own fields by the laws of `cutByReset`, and each slot by
`band_cutByReset_cases`. -/
theorem resetCutsACommandShort : Obligations.ResetCutsACommandShort := by
  intro s w taken rest hhost hs
  replace hs : StateInv { s with host := rest } := hs
  obtain ⟨u, hu⟩ := exists_acceptWord_eq_next hs w
  obtain ⟨rsp, hout⟩ := exists_out_of_acceptWord hs hu
  obtain ⟨hrest, hpower⟩ := cutByReset_host_powerOn (acceptWord_host_powerOn hu) s.params taken
  obtain ⟨hinv, hparams⟩ := stateInv_acceptWord hs hu
  obtain ⟨-, hparams⟩ := stateInv_cutByReset hs hinv hparams taken
  refine ⟨_, u, rsp, (step_of_host_cut hhost).trans (acceptWordCut_of_next hu taken), hu, hout,
    out_cutByReset hout _ taken, rfl, rfl, rfl, rfl, rfl, hrest, hpower, hparams, fun b hb => ?_⟩
  obtain ⟨hband, hcoef⟩ := band_cutByReset_cases s.params { s with host := rest } u taken hb
  exact ⟨hband, hcoef, fun htaken => coef_cutByReset_of_completed hout htaken _ hb⟩

end Sys2Proof.Machine
